-- ==== Sys2Proof/Word.lean ====
section
/-! DEFINITION. The value domains of the block (R10, R56): nibbles, bytes and codewords, and 19-bit command words. -/

namespace Sys2Proof

/-- An unsigned 4-bit value in 0..15 (R10). -/
abbrev Nibble := BitVec 4

/-- An unsigned 8-bit value in 0..255: a byte of the stream, or a codeword (R10). Position `p` of a
codeword, 1 to 8, is bit index `8 - p` (R12). -/
abbrev Byte := BitVec 8

/-- A command word `cmd[18:0]` (R25, R56). -/
abbrev CmdWord := BitVec 19

end Sys2Proof
end

