-- ==== Sys2Proof/Config.lean ====
section
/-! DEFINITION. The free values: constants with no body, of which nothing can be proved (R9, R15, R24, R76). -/

namespace Sys2Proof

/-- The nibble `DECN` returns on an Uncorrectable word: unspecified, any value in 0..15 (R76, D14).
Applied to a counter the machine advances at each use, so that no two uses are tied together.
FREE VALUE, log entry 3; safe. -/
opaque Config.freeNibble : Nat → Nibble

/-- The pair `(flip_en, flip_sel)` the generator gives in a generator state, as the four bits
`d = (d[3], d[2:0])` of R63. Any value, under no law (R69, D11). FREE VALUE, log entry 4; safe. -/
opaque Config.rngDraw : Nat → BitVec 4

/-- The generator's step, which the source leaves open (`RNG`, R9, R24, D11).
FREE VALUE, log entry 4; safe. -/
opaque Config.rngStep : Nat → Nat

end Sys2Proof
end

