-- ==== Sys2Proof/Syntax.lean ====
section
/-! DEFINITION. The operations of the command interface: one constructor per row of the opcode table (R57, R58). -/

namespace Sys2Proof

/-- One constructor per row of the opcode table. The arguments are the operand bits the operation
reads (R58); a bit the spec calls ignored has no place here. -/
inductive Instr where
  /-- `ENCN n`: encode one nibble (R65). -/
  | encn (n : Nibble)
  /-- `ENCB y`: encode one byte as two codewords (R66). -/
  | encb (y : Byte)
  /-- `FLIP c, en, sel`: the channel bit flipper (R68). -/
  | flip (c : Byte) (en : BitVec 1) (sel : BitVec 3)
  /-- `SYND c`: the syndrome decoder (R74). -/
  | synd (c : Byte)
  /-- `CORR c`: the single-bit error corrector (R75). -/
  | corr (c : Byte)
  /-- `DECN c`: the full decoder (R76). -/
  | decn (c : Byte)
  /-- `REAS h, l`: the byte reassembler (R82). -/
  | reas (h l : Nibble)
  /-- The table's row `(illegal)`: the unused operation value 111, which raises IllegalOp whatever
  its operands hold (R60, R84). -/
  | illegal
  deriving DecidableEq, Repr

end Sys2Proof
end

