-- ==== Sys2Proof/Decode.lean ====
section
/-! DEFINITION. The command word's fields, the decoder of all 2^19 words and the encoder (R56 to R61). -/

namespace Sys2Proof

/-- `op = cmd[18:16]` (R25). -/
def opField (w : CmdWord) : BitVec 3 := w.extractLsb' 16 3

/-- `a = cmd[15:8]` (R25). -/
def aField (w : CmdWord) : Byte := w.extractLsb' 8 8

/-- `b = cmd[7:0]` (R25). -/
def bField (w : CmdWord) : Byte := w.extractLsb' 0 8

/-- The command word with the three given fields (R56). -/
def cmdWord (op : BitVec 3) (a b : Byte) : CmdWord := op ++ a ++ b

/-- The high nibble `y[7:4]` of a byte (R13). -/
def hiNibble (y : Byte) : Nibble := y.extractLsb' 4 4

/-- The low nibble `y[3:0]` of a byte (R13). -/
def loNibble (y : Byte) : Nibble := y.extractLsb' 0 4

/-- `flip_en = b[3]` (R58). -/
def flipEnField (b : Byte) : BitVec 1 := b.extractLsb' 3 1

/-- `flip_sel = b[2:0]` (R58). -/
def flipSelField (b : Byte) : BitVec 3 := b.extractLsb' 0 3

/-- The decoder (R57, R58, R61). It is total: the operation value alone selects the operation, and the
one value that selects none, 111, is the reserved row of the table, refused there by name as
IllegalOp (R84). -/
def decode (w : CmdWord) : Instr :=
  match opField w with
  | 0b000#3 => .encn (loNibble (aField w))
  | 0b001#3 => .encb (aField w)
  | 0b010#3 => .flip (aField w) (flipEnField (bField w)) (flipSelField (bField w))
  | 0b011#3 => .synd (aField w)
  | 0b100#3 => .corr (aField w)
  | 0b101#3 => .decn (aField w)
  | 0b110#3 => .reas (loNibble (aField w)) (loNibble (bField w))
  | _ => .illegal

/-- The operation value of each row (R57). -/
def opOf : Instr → BitVec 3
  | .encn _ => 0b000#3
  | .encb _ => 0b001#3
  | .flip _ _ _ => 0b010#3
  | .synd _ => 0b011#3
  | .corr _ => 0b100#3
  | .decn _ => 0b101#3
  | .reas _ _ => 0b110#3
  | .illegal => 0b111#3

/-- The `a` operand the assembler writes, ignored bits zero (R58, R62). -/
def aOf : Instr → Byte
  | .encn n => 0#4 ++ n
  | .encb y => y
  | .flip c _ _ => c
  | .synd c => c
  | .corr c => c
  | .decn c => c
  | .reas h _ => 0#4 ++ h
  | .illegal => 0#8

/-- The `b` operand the assembler writes, ignored bits zero (R58, R62). -/
def bOf : Instr → Byte
  | .encn _ => 0#8
  | .encb _ => 0#8
  | .flip _ en sel => 0#4 ++ en ++ sel
  | .synd _ => 0#8
  | .corr _ => 0#8
  | .decn _ => 0#8
  | .reas _ l => 0#4 ++ l
  | .illegal => 0#8

/-- The encoder: the word the assembler emits (R56, R57, R62). -/
def encode (i : Instr) : CmdWord := cmdWord (opOf i) (aOf i) (bOf i)

/-- The bits of the command word that the operation reads: the letters other than `x` of its
encoding string, and the operation value (R58). -/
def careMask : Instr → CmdWord
  | .encn _ => 0b1110000111100000000#19
  | .encb _ => 0b1111111111100000000#19
  | .flip _ _ _ => 0b1111111111100001111#19
  | .synd _ => 0b1111111111100000000#19
  | .corr _ => 0b1111111111100000000#19
  | .decn _ => 0b1111111111100000000#19
  | .reas _ _ => 0b1110000111100001111#19
  | .illegal => 0b1110000000000000000#19

/-- The command word in a number that holds the table's bits 18..0 in its low bits. Only the low
`nbits` bits count, and bits above 18 have no wire on the command port (R25; log entry 11). -/
def tableCmdWord (nbits w : Nat) : CmdWord := BitVec.ofNat 19 (w % 2 ^ nbits)

/-- What the decoder reads from a table row's bits. Every one of the 2^19 words decodes (R61). -/
def decodeTableWord (nbits w : Nat) : Option Instr := some (decode (tableCmdWord nbits w))

end Sys2Proof
end

