-- ==== Sys2Proof/Machine/State.lean ====
section
/-! DEFINITION. The state of the three agents (R16, R29): the core's ports, the random source's generator, and the host; and the state after reset. -/

namespace Sys2Proof.Machine

/-- The record of six fields the core drives on its result port (R26). -/
structure Result where
  /-- Primary data result. -/
  r : Byte
  /-- Secondary data result. -/
  r2 : Byte
  /-- The syndrome `(s1, s2, s3, s4)` with s1 at bit 3 (R52). -/
  syn : BitVec 4
  /-- Outcome class: 00 Clean, 01 CorrectedAt, 10 Uncorrectable; 11 is reserved (R54). -/
  st : BitVec 2
  /-- Corrected position 1..8, or 0 (R55). -/
  pos : BitVec 4
  /-- 1 when the command selects no operation (R84). -/
  ill : BitVec 1
  deriving DecidableEq, Repr

/-- The result with every field zero: a field an operation does not name is driven to zero (R26). -/
def Result.zero : Result :=
  { r := 0#8, r2 := 0#8, syn := 0#4, st := 0#2, pos := 0#4, ill := 0#1 }

/-- The syndrome of a word: four bits (R45). -/
structure Syndrome where
  s1 : Bool
  s2 : Bool
  s3 : Bool
  s4 : Bool
  deriving DecidableEq, Repr

/-- The Correction Outcome (glossary of 00_scope.md, R72). A position is an integer in 1..8. -/
inductive CorrectionOutcome where
  | clean
  | correctedAt (p : Nat)
  | uncorrectable
  deriving DecidableEq, Repr

/-- One entry of the event log: the pair `(st, pos)` (R28, R81). -/
structure Event where
  st : BitVec 2
  pos : BitVec 4
  deriving DecidableEq, Repr

/-- One transaction the host has issued: the command word and the result it gave (R27). -/
structure Transaction where
  cmd : CmdWord
  result : Result
  deriving DecidableEq, Repr

/-- The six fields of the result port, by name: what the host can route (R26, R28). -/
inductive ResultField where
  | r
  | r2
  | syn
  | st
  | pos
  | ill
  deriving DecidableEq, Repr

/-- Where the host takes an operand of a command from (R28: it sets operands itself, it copies result
fields; R102: it takes codewords of the encoded stream). A draw is no such source: the core sees it
only as operand bits of a `FLIP` (R24), and `Move.flipDrawn` is the one move that passes it on. -/
inductive Source where
  /-- A value the host sets itself ("bypass the channel" included). -/
  | lit (v : Byte)
  /-- A field of the result taken `age` transactions ago; 0 is the latest. -/
  | result (age : Nat) (f : ResultField)
  /-- Codeword `E[k]` of the encoded stream. -/
  | stream (k : Nat)
  deriving DecidableEq, Repr

/-- What the host does next: its moves on the core and on the random source (R28), and its own
bookkeeping of streams (R101, R102). Logging an event is no move of this list: the host logs after
each `DECN` (R29; log entry 7). -/
inductive Move where
  /-- Present a command word the host gives whole. -/
  | issue (w : CmdWord)
  /-- Present a command whose operands are routed. -/
  | route (op : BitVec 3) (a b : Source)
  /-- Present a `FLIP` of a routed codeword whose `b` operand is the pair drawn and not yet used: one use
  of the channel (R24, R68, R70). -/
  | flipDrawn (c : Source)
  /-- Set the generator's seed (R101). -/
  | seed (n : Nat)
  /-- Ask the random source for one pair (R24). -/
  | draw
  /-- Append the latest result's `r`, then its `r2`, to the encoded stream (R102, encode stage). -/
  | collect
  /-- Append the latest result's `r` to the decoded output (R102, decode stage). -/
  | emit
  /-- The encoded stream is set as a whole: `E = []` at the start of the encode stage, or the stream that
  comes back from external storage (R102). -/
  | loadStream (e : List Byte)
  /-- Count the codewords before pairing them (R28, R86). -/
  | checkStream
  /-- Clear the event log (R101). -/
  | clearLog
  /-- Start a new decoded output (R102; log entry 16). -/
  | clearOutput
  deriving DecidableEq, Repr

/-- The faults of the spec. -/
inductive Fault where
  /-- IllegalOp (R84). Raised by the operation value 111, and RECORDED in `State.faulted`: the spec
  gives the transaction its result, so the step answers a next state, and the run counts as failed
  from then on (R91). Safe (log entry 5). -/
  | illegalOp
  /-- MalformedInput (R86, R102). Raised by the host's length check on an odd number of codewords; the
  run ends. Safe (log entry 10). -/
  | malformedInput
  deriving DecidableEq, Repr

/-- What the model gives no meaning to. -/
inductive Refusal where
  /-- An instruction with no meaning yet; raised by no arm of `exec` in this model. Safe. -/
  | notModelled (mnemonic : String)
  /-- The host routes, collects or emits a result that no transaction has given: a result must exist
  before it is copied (R103). Raised by host moves only. Safe (log entry 8). -/
  | noResult
  /-- The host routes a codeword past the end of the encoded stream. Raised by host moves only.
  Safe (log entry 8). -/
  | noCodeword
  /-- The host is to use the channel with a draw it has not taken, or has used already (R70: one fresh
  draw per codeword). Raised by `Move.flipDrawn` only. Safe (log entry 9). -/
  | noDraw
  deriving DecidableEq, Repr

/-- The state of the core, the random source and the host. The core's own tables are constants of
Machine/Ops.lean, since nothing can write them (R22; log entry 1). -/
structure State where
  /-- Core, command port: the word the host last presented and holds (R25, R106). -/
  cmd : CmdWord
  /-- Core, result port (R26). -/
  port : Result
  /-- Random source: the generator's state (R24). -/
  gen : Nat
  /-- Host: the pair drawn for the next use of the channel, if there is one (R24, R70). -/
  drawn : Option (BitVec 4)
  /-- Host: the event log, oldest first (R28, R29). -/
  log : List Event
  /-- Host: the transactions whose results it has, latest first (R27, R28). -/
  taken : List Transaction
  /-- Host: the encoded stream `E` (R102); its reset value is the model's (log entry 17). -/
  stream : List Byte
  /-- Host: the decoded output (R102). -/
  output : List Byte
  /-- Host: the moves it has still to make, next first (R16, R19). -/
  moves : List Move
  /-- The run's record of an IllegalOp (R84, R91). -/
  faulted : Option Fault
  /-- The model's own: how many free nibbles have been used (R76; log entry 3). -/
  freeCtr : Nat
  deriving DecidableEq, Repr

/-- What a step, or an instruction, answers. -/
abbrev Answer := Host.Outcome State Fault Refusal

/-- The machine before the first command (R29, R99, R101). The core has no reset: its ports are at
values of the model's own (log entry 2), which nothing reads before the first transaction. The host
has no move to make until a program is given to it (log entry 6). R29 gives the event log empty; that the
encoded stream is empty before any encode stage (R102 sets `E = []` only there), and that the host has no
draw, transaction or output and the run no fault, is the model's choice, DESIGN CHOICE (log entry 17). -/
def State.reset : State :=
  { cmd := 0#19
    port := Result.zero
    gen := 0
    drawn := none
    log := []
    taken := []
    stream := []
    output := []
    moves := []
    faulted := none
    freeCtr := 0 }

end Sys2Proof.Machine
end

