-- ==== Sys2Proof/Machine/Ops.lean ====
section
/-! DEFINITION. The constant tables, the functions of the code, and the operations on the state that meanings share. -/

namespace Sys2Proof.Machine

/-! ### The constant tables (R22) -/

/-- `CODE_TABLE`: 16 codewords indexed by a nibble (R48). -/
def codeTable : Vector Byte 16 :=
  #v[0x00#8, 0x1E#8, 0x2D#8, 0x33#8, 0x4B#8, 0x55#8, 0x66#8, 0x78#8,
     0x87#8, 0x99#8, 0xAA#8, 0xB4#8, 0xCC#8, 0xD2#8, 0xE1#8, 0xFF#8]

/-- `H`: the parity-check matrix, one mask over `c[7:0]` per row s1 to s4 (R44). -/
def parityMatrix : Vector Byte 4 := #v[0x1E#8, 0x66#8, 0xAA#8, 0xFF#8]

/-! ### The functions of the code -/

/-- `table(n)` (R48). -/
def table (n : Nibble) : Byte := codeTable.get n.toFin

/-- The exclusive OR of all bits (R14). -/
def parity (v : Byte) : Bool :=
  v.getLsbD 0 ^^ v.getLsbD 1 ^^ v.getLsbD 2 ^^ v.getLsbD 3 ^^
  v.getLsbD 4 ^^ v.getLsbD 5 ^^ v.getLsbD 6 ^^ v.getLsbD 7

/-- `syndrome(c)`, through the rows of `H` (R45). -/
def syndrome (c : Byte) : Syndrome :=
  { s1 := parity (c &&& parityMatrix[0])
    s2 := parity (c &&& parityMatrix[1])
    s3 := parity (c &&& parityMatrix[2])
    s4 := parity (c &&& parityMatrix[3]) }

/-- `classify` (R72): the four cases, in the order of the rule. -/
def classify (s : Syndrome) : CorrectionOutcome :=
  match s.s4, s.s1 || s.s2 || s.s3 with
  | false, false => .clean
  | false, true => .uncorrectable
  | true, false => .correctedAt 8
  | true, true => .correctedAt (4 * s.s1.toNat + 2 * s.s2.toNat + 1 * s.s3.toNat)

/-- `e_p = 0x80 >> (p - 1)`: the word with only position `p` set (R53). -/
def positionBit (p : Nat) : Byte := 0x80#8 >>> (p - 1)

/-- The word `correct` gives for a word with the given outcome (R73): the located bit is flipped, and
otherwise no bit is modified. -/
def flipLocated (c : Byte) : CorrectionOutcome → Byte
  | .clean => c
  | .correctedAt p => c ^^^ positionBit p
  | .uncorrectable => c

/-- `correct(c)`, its first component (R73). The other two are `classify (syndrome c)` and
`syndrome c`. -/
def correct (c : Byte) : Byte := flipLocated c (classify (syndrome c))

/-- `nibble_of(c) = c[7:4]` (R50). -/
def nibbleOf (c : Byte) : Nibble := hiNibble c

/-- The flip mask of the channel (R59): one bit at position `flip_sel + 1`, or none. -/
def flipMask (en : BitVec 1) (sel : BitVec 3) : Byte :=
  if en = 1#1 then 0x80#8 >>> sel.toNat else 0x00#8

/-! ### Operations on the state -/

/-- Drive the result port: all six fields at once (R26, R36). -/
def drive (res : Result) (s : State) : State := { s with port := res }

/-- The free nibble of this use, `draw()` of R76. -/
def freshNibble (s : State) : Nibble := Config.freeNibble s.freeCtr

/-- Count one use of a free nibble. -/
def useFresh (s : State) : State := { s with freeCtr := s.freeCtr + 1 }

/-- TAKING IllegalOp (R84): the port shows `ill = 1` and every other field 0, and the run is faulted.
There is no trap mechanism: no state of the core is saved, no mode changes and control goes nowhere
(R90), and no return from it exists (R91). -/
def raiseIllegalOp (s : State) : State :=
  { drive { Result.zero with ill := 1#1 } s with faulted := some .illegalOp }

end Sys2Proof.Machine
end

