-- ==== Sys2Proof/Machine/Operands.lean ====
section
/-! DEFINITION. Operand forms: widening and joining nibbles, and the sources the host routes operands from (R14, R28, R82). -/

namespace Sys2Proof.Machine

/-- `zext_8(n)` of a nibble (R11). -/
def zextNibble (n : Nibble) : Byte := n.setWidth 8

/-- `(h, l)` joined into a byte, `h` in the more significant bits: `(h << 4) | l` (R82). -/
def joinNibbles (h l : Nibble) : Byte := h ++ l

/-- A field of a result as an operand byte, zero-extended (R26, R28). -/
def fieldByte (res : Result) : ResultField → Byte
  | .r => res.r
  | .r2 => res.r2
  | .syn => res.syn.setWidth 8
  | .st => res.st.setWidth 8
  | .pos => res.pos.setWidth 8
  | .ill => res.ill.setWidth 8

/-- The `b` operand of a `FLIP` with draw `d`: `b[3] = d[3]` is flip_en, `b[2:0] = d[2:0]` is flip_sel, and
the ignored bits are zero (R63, R68). -/
def drawOperand (d : BitVec 4) : Byte := 0#4 ++ d

/-- The operand byte a source gives, or the reason there is none (R28, R103). -/
def readSource (s : State) : Source → Except Refusal Byte
  | .lit v => .ok v
  | .result age f =>
    match s.taken[age]? with
    | some t => .ok (fieldByte t.result f)
    | none => .error .noResult
  | .stream k =>
    match s.stream[k]? with
    | some c => .ok c
    | none => .error .noCodeword

end Sys2Proof.Machine
end

