-- ==== Sys2Proof/Machine/Channel.lean ====
section
/-! DEFINITION. The channel family: FLIP (R68). -/

namespace Sys2Proof.Machine

/-- `FLIP` (R68): the codeword with the bit the mask selects flipped, or unchanged, on `r`. -/
def execFlip (c : Byte) (en : BitVec 1) (sel : BitVec 3) (s : State) : Answer :=
  .next (drive { Result.zero with r := c ^^^ flipMask en sel } s)

end Sys2Proof.Machine
end

