-- ==== Sys2Proof/Machine/Flags.lean ====
section
/-! DEFINITION. The outcome fields of the result port: how the syndrome, the outcome class and the position are encoded (R52, R54, R55). -/

namespace Sys2Proof.Machine

/-- `syn` (R52): s1 at bit 3, s4 at bit 0. -/
def synField (s : Syndrome) : BitVec 4 :=
  BitVec.ofBool s.s1 ++ BitVec.ofBool s.s2 ++ BitVec.ofBool s.s3 ++ BitVec.ofBool s.s4

/-- `st_code` (R54). The code 11 is reserved and never driven. -/
def stCode : CorrectionOutcome → BitVec 2
  | .clean => 0b00#2
  | .correctedAt _ => 0b01#2
  | .uncorrectable => 0b10#2

/-- `pos_code` (R55). -/
def posCode : CorrectionOutcome → BitVec 4
  | .clean => 0#4
  | .correctedAt p => BitVec.ofNat 4 p
  | .uncorrectable => 0#4

/-- A result with the three outcome fields of received word `c` driven and every other field zero
(R74): what the three decoder operations have in common. -/
def outcomeResult (c : Byte) : Result :=
  { Result.zero with
    syn := synField (syndrome c)
    st := stCode (classify (syndrome c))
    pos := posCode (classify (syndrome c)) }

end Sys2Proof.Machine
end

