-- ==== Sys2Proof/Machine/Decoder.lean ====
section
/-! DEFINITION. The decoder family: SYND, CORR and DECN (R72 to R76). -/

namespace Sys2Proof.Machine

/-- `SYND` (R74): the syndrome and the outcome; the word is not returned. -/
def execSynd (c : Byte) (s : State) : Answer :=
  .next (drive (outcomeResult c) s)

/-- `CORR` (R75): the corrected word on `r`, with its syndrome and outcome. -/
def execCorr (c : Byte) (s : State) : Answer :=
  .next (drive { outcomeResult c with r := correct c } s)

/-- The nibble `DECN` returns (R76): the corrected word's nibble, or on Uncorrectable a free value. -/
def decodedNibble (o : CorrectionOutcome) (c' : Byte) (s : State) : Nibble :=
  match o with
  | .clean => nibbleOf c'
  | .correctedAt _ => nibbleOf c'
  | .uncorrectable => freshNibble s

/-- The count of free nibbles after a `DECN` with the given outcome (R76). -/
def countFresh (o : CorrectionOutcome) (s : State) : State :=
  match o with
  | .clean => s
  | .correctedAt _ => s
  | .uncorrectable => useFresh s

/-- `DECN` (R76): the nibble on `r`, zero-extended, and the corrected word on `r2`, with its syndrome and
outcome. On an Uncorrectable word the nibble is a free value, and the use of it is counted. -/
def execDecn (c : Byte) (s : State) : Answer :=
  .next (countFresh (classify (syndrome c)) (drive
    { outcomeResult c with
      r := zextNibble (decodedNibble (classify (syndrome c)) (correct c) s)
      r2 := correct c } s))

end Sys2Proof.Machine
end

