-- ==== Sys2Proof/Machine/Encoder.lean ====
section
/-! DEFINITION. The encoder family: ENCN and ENCB (R64 to R66). -/

namespace Sys2Proof.Machine

/-- `ENCN` (R65): the nibble's codeword on `r`. -/
def execEncn (n : Nibble) (s : State) : Answer :=
  .next (drive { Result.zero with r := table n } s)

/-- `ENCB` (R66): the high nibble's codeword on `r`, the low nibble's on `r2` (R33). -/
def execEncb (y : Byte) (s : State) : Answer :=
  .next (drive { Result.zero with r := table (hiNibble y), r2 := table (loNibble y) } s)

end Sys2Proof.Machine
end

