-- ==== Sys2Proof/Machine/Illegal.lean ====
section
/-! DEFINITION. The reserved operation value 111 (R60, R84). -/

namespace Sys2Proof.Machine

/-- The operation value 111 (R84): the transaction takes IllegalOp, whatever its operands hold. -/
def execIllegal (s : State) : Answer :=
  .next (raiseIllegalOp s)

end Sys2Proof.Machine
end

