-- ==== Sys2Proof/Machine/Reassembler.lean ====
section
/-! DEFINITION. The reassembler family: REAS (R82). -/

namespace Sys2Proof.Machine

/-- `REAS` (R82): the two nibbles joined into a byte on `r`, the first operand high (R33). -/
def execReas (h l : Nibble) (s : State) : Answer :=
  .next (drive { Result.zero with r := joinNibbles h l } s)

end Sys2Proof.Machine
end

