-- ==== Sys2Proof/Machine/Dispatch.lean ====
section
/-! DEFINITION. One arm per constructor of Instr: what the core does with a command (R57). -/

namespace Sys2Proof.Machine

/-- One transaction of the core on the decoded command (R27). -/
def exec (i : Instr) (s : State) : Host.Outcome State Fault Refusal :=
  match i with
  | .encn n => Sys2Proof.Machine.execEncn n s
  | .encb y => Sys2Proof.Machine.execEncb y s
  | .flip c en sel => Sys2Proof.Machine.execFlip c en sel s
  | .synd c => Sys2Proof.Machine.execSynd c s
  | .corr c => Sys2Proof.Machine.execCorr c s
  | .decn c => Sys2Proof.Machine.execDecn c s
  | .reas h l => Sys2Proof.Machine.execReas h l s
  | .illegal => Sys2Proof.Machine.execIllegal s

end Sys2Proof.Machine
end

