-- ==== Sys2Proof/Machine/Driver.lean ====
section
/-! DEFINITION. The host's and the random source's steps: issuing a command, routing results, drawing, and the checks and logs the host owes (R24, R28, R81, R86, R102). -/

namespace Sys2Proof.Machine

/-- The events the host logs for one transaction: the pair `(st, pos)` of a `DECN` whose `st` is not
Clean, and nothing otherwise (R28, R81). -/
def loggedEvents (t : Transaction) : List Event :=
  if opField t.cmd = 0b101#3 ∧ t.result.st ≠ 0b00#2 then
    [{ st := t.result.st, pos := t.result.pos }]
  else []

/-- The host puts a command word on the command port and holds it there (R25, R106). -/
def present (w : CmdWord) (s : State) : State := { s with cmd := w }

/-- The host takes the result of the command on the port, and logs its event (R28, R29). -/
def takeResult (s : State) : State :=
  { s with
    taken := ⟨s.cmd, s.port⟩ :: s.taken
    log := s.log ++ loggedEvents ⟨s.cmd, s.port⟩ }

/-- The host's part after the core's step: with a next state it takes the result. -/
def thenTake : Answer → Answer
  | .next s => .next (takeResult s)
  | .fault r => .fault r
  | .refused r => .refused r

/-- One transaction (R27): the host presents the word, the core runs it, the host takes the result. -/
def transact (w : CmdWord) (s : State) : Answer :=
  thenTake (exec (decode w) (present w s))

/-- A transaction whose operands are routed (R28). -/
def routeCommand (op : BitVec 3) (a b : Source) (s : State) : Answer :=
  match readSource s a, readSource s b with
  | .ok av, .ok bv => transact (cmdWord op av bv) s
  | .error e, _ => .refused e
  | .ok _, .error e => .refused e

/-- The draw is used up (R70; log entry 9). -/
def useDraw (s : State) : State := { s with drawn := none }

/-- One use of the channel (R24, R68, R70): a `FLIP` of the routed codeword with the draw as its `b`
operand. It is the only way a draw reaches the core. -/
def flipWithDraw (c : Source) (s : State) : Answer :=
  match readSource s c, s.drawn with
  | .ok cv, some d => transact (cmdWord 0b010#3 cv (drawOperand d)) (useDraw s)
  | .error e, _ => .refused e
  | .ok _, none => .refused .noDraw

/-- The host sets the generator's seed (R24, R101). -/
def seedGenerator (n : Nat) (s : State) : State := { s with gen := n }

/-- The random source's step (R24): it gives a pair to the host and advances the generator. -/
def takeDraw (s : State) : State :=
  { s with drawn := some (Config.rngDraw s.gen), gen := Config.rngStep s.gen }

/-- `E.append(r); E.append(r2)` of the latest result (R102). -/
def collectResult (s : State) : Answer :=
  match s.taken with
  | [] => .refused .noResult
  | t :: _ => .next { s with stream := s.stream ++ [t.result.r, t.result.r2] }

/-- `out.append(r)` of the latest result (R102). -/
def emitResult (s : State) : Answer :=
  match s.taken with
  | [] => .refused .noResult
  | t :: _ => .next { s with output := s.output ++ [t.result.r] }

/-- The length check before any pairing (R86, R102): an odd count ends the run as MalformedInput. -/
def checkLength (s : State) : Answer :=
  if s.stream.length % 2 = 1 then .fault .malformedInput else .next s

/-- The encoded stream is set as a whole (R102). -/
def setStream (e : List Byte) (s : State) : State := { s with stream := e }

/-- The host clears its event log (R101). -/
def clearEvents (s : State) : State := { s with log := [] }

/-- The host starts a new decoded output (R102; log entry 16). -/
def clearOutput (s : State) : State := { s with output := [] }

/-- One move of the host (R28, R101, R102). -/
def runMove (m : Move) (s : State) : Answer :=
  match m with
  | .issue w => transact w s
  | .route op a b => routeCommand op a b s
  | .flipDrawn c => flipWithDraw c s
  | .seed n => .next (seedGenerator n s)
  | .draw => .next (takeDraw s)
  | .collect => collectResult s
  | .emit => emitResult s
  | .loadStream e => .next (setStream e s)
  | .checkStream => checkLength s
  | .clearLog => .next (clearEvents s)
  | .clearOutput => .next (clearOutput s)

/-- The host's next move is taken off its list. -/
def dropMove (s : State) : State := { s with moves := s.moves.tail }

/-- At most one agent steps at a time, and the host decides the order (R16): the machine makes the
host's next move. With no move left nothing happens (log entry 6). -/
def runNext (s : State) : Answer :=
  match s.moves with
  | [] => .next s
  | m :: _ => runMove m (dropMove s)

/-- The host is about to issue the given word, whatever it would have done next. -/
def issueFirst (w : CmdWord) (s : State) : State := { s with moves := .issue w :: s.moves }

end Sys2Proof.Machine
end

