-- ==== Sys2Proof/Machine/Step.lean ====
section
/-! DEFINITION. One step of the machine, and the placing of a command where the next step runs it. -/

namespace Sys2Proof.Machine

/-- One step: the host's next move, with the transaction or the draw it makes (R16). -/
def step (s : State) : Host.Outcome State Fault Refusal := runNext s

/-- The state in which the very next step presents the given command word to the core (R19: the core
fetches nothing, the host presents commands; log entry 6). -/
def State.withFetchWord (s : State) (nbits w : Nat) : State := issueFirst (tableCmdWord nbits w) s

end Sys2Proof.Machine
end

