-- ==== Sys2Proof/Machine/Assembler.lean ====
section
/-! DEFINITION. The assembler: one command per line, its pseudo-instructions, and its range checks (R62, R63). -/

namespace Sys2Proof.Machine

/-- A command as it is written, its operands numbers of any size (R62), and the pseudo-instructions
(R63). `chan` takes the draw as an operand, as the programs of 95_test_vectors.md list it. -/
inductive Asm where
  | encn (n : Nat)
  | encb (y : Nat)
  | flip (c e s : Nat)
  | synd (c : Nat)
  | corr (c : Nat)
  | decn (c : Nat)
  | reas (h l : Nat)
  | pass (c : Nat)
  | flipAt (c p : Nat)
  | chan (c d : Nat)
  deriving DecidableEq, Repr

/-- Whether every operand is in its range (R62, R63). -/
def asmInRange : Asm → Bool
  | .encn n => decide (n ≤ 15)
  | .encb y => decide (y ≤ 255)
  | .flip c e s => decide (c ≤ 255) && decide (e ≤ 1) && decide (s ≤ 7)
  | .synd c => decide (c ≤ 255)
  | .corr c => decide (c ≤ 255)
  | .decn c => decide (c ≤ 255)
  | .reas h l => decide (h ≤ 15) && decide (l ≤ 15)
  | .pass c => decide (c ≤ 255)
  | .flipAt c p => decide (c ≤ 255) && decide (1 ≤ p) && decide (p ≤ 8)
  | .chan c d => decide (c ≤ 255) && decide (d ≤ 15)

/-- The instruction a command in range stands for, pseudo-instructions expanded (R63). -/
def asmInstr : Asm → Instr
  | .encn n => .encn (BitVec.ofNat 4 n)
  | .encb y => .encb (BitVec.ofNat 8 y)
  | .flip c e s => .flip (BitVec.ofNat 8 c) (BitVec.ofNat 1 e) (BitVec.ofNat 3 s)
  | .synd c => .synd (BitVec.ofNat 8 c)
  | .corr c => .corr (BitVec.ofNat 8 c)
  | .decn c => .decn (BitVec.ofNat 8 c)
  | .reas h l => .reas (BitVec.ofNat 4 h) (BitVec.ofNat 4 l)
  | .pass c => .flip (BitVec.ofNat 8 c) 0#1 0#3
  | .flipAt c p => .flip (BitVec.ofNat 8 c) 1#1 (BitVec.ofNat 3 (p - 1))
  | .chan c d => .flip (BitVec.ofNat 8 c) (BitVec.ofNat 1 (d / 8)) (BitVec.ofNat 3 (d % 8))

/-- The word a command assembles to. An operand out of its range is an assembly error, and no word is
emitted (R62). -/
def assemble (x : Asm) : Option CmdWord :=
  if asmInRange x then some (encode (asmInstr x)) else none

/-! ### Reading one line of text (R62; log entry 14) -/

/-- A space or a tab. -/
def isBlank (c : Char) : Bool := c == ' ' || c == '\t'

/-- The text with its blanks at both ends taken off. -/
def trimBlanks (cs : List Char) : List Char :=
  ((cs.dropWhile isBlank).reverse.dropWhile isBlank).reverse

/-- The text in front of `;`, which begins a comment (R62). -/
def stripComment (cs : List Char) : List Char := cs.takeWhile (· != ';')

/-- The operands of a line, separated by commas (R62). -/
def splitCommas : List Char → List (List Char)
  | [] => [[]]
  | c :: cs =>
    if c == ',' then [] :: splitCommas cs
    else
      match splitCommas cs with
      | [] => [[c]]
      | x :: xs => (c :: x) :: xs

/-- The value of a digit in the given base, 10 or 16. -/
def digitValue (base : Nat) (c : Char) : Option Nat :=
  let v :=
    if '0' ≤ c ∧ c ≤ '9' then c.toNat - '0'.toNat
    else if 'a' ≤ c ∧ c ≤ 'f' then c.toNat - 'a'.toNat + 10
    else if 'A' ≤ c ∧ c ≤ 'F' then c.toNat - 'A'.toNat + 10
    else base
  if v < base then some v else none

/-- The number the digits write, after the digits read so far. -/
def readDigits (base : Nat) : Nat → List Char → Option Nat
  | acc, [] => some acc
  | acc, c :: cs =>
    match digitValue base c with
    | some d => readDigits base (base * acc + d) cs
    | none => none

/-- A number: decimal, or hexadecimal after `0x` (R62). -/
def readNumber : List Char → Option Nat
  | [] => none
  | '0' :: 'x' :: d :: ds => readDigits 16 0 (d :: ds)
  | d :: ds => readDigits 10 0 (d :: ds)

/-- The operands of a line as numbers. -/
def readNumbers : List (List Char) → Option (List Nat)
  | [] => some []
  | x :: xs =>
    match readNumber (trimBlanks x), readNumbers xs with
    | some n, some ns => some (n :: ns)
    | _, _ => none

/-- The command with the given mnemonic and operands (R62, R63). -/
def asmOf (mnemonic : List Char) (operands : List Nat) : Option Asm :=
  match operands with
  | [x] =>
    if mnemonic = "ENCN".toList then some (.encn x)
    else if mnemonic = "ENCB".toList then some (.encb x)
    else if mnemonic = "SYND".toList then some (.synd x)
    else if mnemonic = "CORR".toList then some (.corr x)
    else if mnemonic = "DECN".toList then some (.decn x)
    else if mnemonic = "PASS".toList then some (.pass x)
    else none
  | [x, y] =>
    if mnemonic = "REAS".toList then some (.reas x y)
    else if mnemonic = "FLIPAT".toList then some (.flipAt x y)
    else if mnemonic = "CHAN".toList then some (.chan x y)
    else none
  | [x, y, z] => if mnemonic = "FLIP".toList then some (.flip x y z) else none
  | _ => none

/-- The command a line holds, if it holds one. -/
def readLine (line : List Char) : Option Asm :=
  let body := trimBlanks (stripComment line)
  let mnemonic := body.takeWhile (fun c => !isBlank c)
  match readNumbers (splitCommas (body.dropWhile (fun c => !isBlank c))) with
  | some operands => asmOf mnemonic operands
  | none => none

/-- The word one line of assembly assembles to (R62). -/
def assembleLine (line : List Char) : Option CmdWord :=
  match readLine line with
  | some x => assemble x
  | none => none

end Sys2Proof.Machine
end

