-- ==== Sys2Proof/Machine/Pipeline.lean ====
section
/-! DEFINITION. The host's pipeline over a byte stream, as lists of moves (R32, R67, R70, R101, R102). -/

namespace Sys2Proof.Machine

/-- The host's set-up before the first command (R101). -/
def bootMoves (seed : Nat) : List Move := [.seed seed, .clearLog]

/-- Each byte's two codewords appended to the stream, the high nibble's first (R32, R102). -/
def encodeBytes : List Byte → List Move
  | [] => []
  | y :: ys => .issue (encode (.encb y)) :: .collect :: encodeBytes ys

/-- The encode stage (R67, R102): `E = []`, then each byte in order. An empty input gives an empty
stream. -/
def encodeMoves (input : List Byte) : List Move := .loadStream [] :: encodeBytes input

/-- `CHAN c, d` (R63, R70): one use of the channel, a fresh draw and then `FLIP` of `c` with it. -/
def channelUse (c : Source) : List Move := [.draw, .flipDrawn c]

/-- One codeword through the channel and the decoder (R70, R102): `E[k]` through the channel, then
`DECN` of what `FLIP` gave. The host logs the event of the `DECN`. -/
def codewordMoves (k : Nat) : List Move :=
  channelUse (.stream k) ++ [.route 0b101#3 (.result 0 .r) (.lit 0#8)]

/-- One pair of codewords (R102): both decoded, then `REAS` of the two nibbles, then the byte appended
to the output. The high nibble's `DECN` is two transactions before the low nibble's. -/
def pairMoves (j : Nat) : List Move :=
  codewordMoves (2 * j) ++ codewordMoves (2 * j + 1) ++
    [.route 0b110#3 (.result 2 .r) (.result 0 .r), .emit]

/-- The pairs `first`, `first + 1`, …, `count` of them. -/
def pairsFrom (first : Nat) : Nat → List Move
  | 0 => []
  | count + 1 => pairMoves first ++ pairsFrom (first + 1) count

/-- The decode stage on a stream of `len` codewords (R102): a new output (log entry 16), the length check
before any pairing, then the pairs in order. -/
def decodeMoves (len : Nat) : List Move :=
  .clearOutput :: .checkStream :: pairsFrom 0 (len / 2)

/-- The decode stage on a stream that comes back from external storage (R102). -/
def decodeStored (e : List Byte) : List Move := .loadStream e :: decodeMoves e.length

/-- A whole run over the input bytes (R101, R102). -/
def pipeline (seed : Nat) (input : List Byte) : List Move :=
  bootMoves seed ++ encodeMoves input ++ decodeMoves (2 * input.length)

end Sys2Proof.Machine
end

