-- ==== Sys2Proof/Safety.lean ====
section
/-! DEFINITION. What claims are stated in: safe runs and dutiful hosts, the result function of R27, and the invariants of the three agents. -/

namespace Sys2Proof

open Sys2Proof.Machine

/-! ### Safe runs -/

/-- No IllegalOp has been raised: the premise a claim about a run takes (R84). -/
abbrev Safe (s : State) : Prop := s.faulted = none

/-- A move that never presents the operation value 111 (R28). -/
def legalMove : Move → Bool
  | .issue w => opField w != 0b111#3
  | .route op _ _ => op != 0b111#3
  | .flipDrawn _ => true
  | .seed _ => true
  | .draw => true
  | .collect => true
  | .emit => true
  | .loadStream _ => true
  | .checkStream => true
  | .clearLog => true
  | .clearOutput => true

/-- A host that keeps that duty in every move it has still to make (R28). -/
abbrev LegalHost (s : State) : Prop := ∀ m ∈ s.moves, legalMove m = true

/-! ### The result of a command -/

/-- Whether the received word is Uncorrectable: `s4 = 0` and `(s1, s2, s3)` not all zero (R72). -/
def isUncorrectable (c : Byte) : Bool :=
  !(syndrome c).s4 && ((syndrome c).s1 || (syndrome c).s2 || (syndrome c).s3)

/-- The free nibble counts in exactly this case (R27, R76). -/
def usesDraw : Instr → Bool
  | .decn c => isUncorrectable c
  | .encn _ => false
  | .encb _ => false
  | .flip _ _ _ => false
  | .synd _ => false
  | .corr _ => false
  | .reas _ _ => false
  | .illegal => false

/-- `F(cmd, d)` of R27: the result record as a function of the command and of the draw `d`, with no
state in it. Each line is the operation's rule. -/
def resultOf (i : Instr) (d : Nibble) : Result :=
  match i with
  | .encn n => ⟨table n, 0#8, 0#4, 0#2, 0#4, 0#1⟩
  | .encb y => ⟨table (y.extractLsb' 4 4), table (y.extractLsb' 0 4), 0#4, 0#2, 0#4, 0#1⟩
  | .flip c en sel => ⟨c ^^^ flipMask en sel, 0#8, 0#4, 0#2, 0#4, 0#1⟩
  | .synd c =>
    ⟨0#8, 0#8, synField (syndrome c), stCode (classify (syndrome c)),
      posCode (classify (syndrome c)), 0#1⟩
  | .corr c =>
    ⟨correct c, 0#8, synField (syndrome c), stCode (classify (syndrome c)),
      posCode (classify (syndrome c)), 0#1⟩
  | .decn c =>
    ⟨(if isUncorrectable c then d else (correct c).extractLsb' 4 4).setWidth 8, correct c,
      synField (syndrome c), stCode (classify (syndrome c)), posCode (classify (syndrome c)), 0#1⟩
  | .reas h l => ⟨h ++ l, 0#8, 0#4, 0#2, 0#4, 0#1⟩
  | .illegal => ⟨0#8, 0#8, 0#4, 0#2, 0#4, 1#1⟩

/-- The result is one the command can give: `F(cmd, d)` for some draw `d` (R27). -/
abbrev Produces (w : CmdWord) (res : Result) : Prop := ∃ d : Nibble, res = resultOf (decode w) d

/-- The number of bits set in a word: the Hamming weight, and of `x ^^^ y` the Hamming distance (R7). -/
def weight (v : Byte) : Nat := (List.range 8).countP (fun i => v.getLsbD i)

/-! ### Invariants -/

/-- The values the fields of a result can take: `st` is never 11 (R54), `pos` is 1..8 with `st = 01`
and 0 otherwise (R55), an Uncorrectable outcome has a syndrome other than zero (R72), and with
`ill = 1` every other field is 0 (R84). -/
abbrev LegalResult (res : Result) : Prop :=
  res.st ≠ 0b11#2 ∧
  (res.st = 0b01#2 → 1 ≤ res.pos.toNat ∧ res.pos.toNat ≤ 8) ∧
  (res.st ≠ 0b01#2 → res.pos = 0#4) ∧
  (res.st = 0b10#2 → res.syn ≠ 0#4) ∧
  (res.ill = 1#1 → res = ⟨0#8, 0#8, 0#4, 0#2, 0#4, 1#1⟩)

/-- The result port shows a legal result. -/
abbrev LegalPort (s : State) : Prop := LegalResult s.port

/-- Every result the host has taken is one its command gives (R27). -/
abbrev SoundResults (s : State) : Prop := ∀ t ∈ s.taken, Produces t.cmd t.result

/-- Once there has been a transaction, the ports hold its command and its result: the host holds `cmd`
until it has taken the result (R106). -/
abbrev PortsHoldLatest (s : State) : Prop := ∀ t ∈ s.taken.head?, s.cmd = t.cmd ∧ s.port = t.result

/-- The events of a list of transactions, the latest transaction first in the list and its event last
in the answer: for each `DECN` with `st` other than Clean, its `(st, pos)` (R81). -/
def eventsOf (ts : List Transaction) : List Event :=
  (ts.reverse.filter
    (fun t => t.cmd.extractLsb' 16 3 == 0b101#3 && t.result.st != 0b00#2)).map
    (fun t => ⟨t.result.st, t.result.pos⟩)

/-- The event log is the `DECN` events in order, from the last clearing of the log on (R81, R101). -/
abbrev LogIsEvents (s : State) : Prop := s.log <:+ eventsOf s.taken

/-- The run counts as failed exactly when the host has issued the operation value 111 (R84, R91). -/
abbrev FaultedByIllegal (s : State) : Prop :=
  s.faulted = if s.taken.any (fun t => t.cmd.extractLsb' 16 3 == 0b111#3)
    then some .illegalOp else none

end Sys2Proof
end

