-- ==== Sys2Proof/WellFormed.lean ====
section
/-! DEFINITION. Which terms of the syntax are commands the host may issue (R28, R60). -/

namespace Sys2Proof

/-- A well-formed instruction is one of the seven operations: operand widths are carried by the
types, and the one term that is no legal command is the reserved operation value 111 (R60). The host
owes never to issue it (R28); issuing it is not stopped, it raises IllegalOp (R84). -/
def Instr.wellFormed : Instr → Bool
  | .encn _ => true
  | .encb _ => true
  | .flip _ _ _ => true
  | .synd _ => true
  | .corr _ => true
  | .decn _ => true
  | .reas _ _ => true
  | .illegal => false

end Sys2Proof
end

