-- ==== Sys2Proof/Certificates/Slice0/Obligations.lean ====
section
/-! DEFINITION. The statements for the provers: what the spec's numbered rules say of the decoder, of each operation, of the code, and of the three agents. -/

open Sys2Proof Sys2Proof.Machine

/-! ### Encoding -/

/-- Words written out bit by bit from the encodings of R58, one per row of the opcode table. -/
def Obligations.SampleWordsDecode : Prop :=
  decode 0b0000000010100000000#19 = .encn 5#4 ∧
  decode 0b0011010011100000000#19 = .encb 0xA7#8 ∧
  decode 0b0101111111100001010#19 = .flip 0xFF#8 1#1 2#3 ∧
  decode 0b0111101111100000000#19 = .synd 0xDF#8 ∧
  decode 0b1001001100000000000#19 = .corr 0x98#8 ∧
  decode 0b1011101111100000000#19 = .decn 0xDF#8 ∧
  decode 0b1100000101000000111#19 = .reas 0xA#4 0x7#4 ∧
  decode 0b1110000010100000000#19 = .illegal

/-- R57, R61: the operation value alone selects one of the seven operations or IllegalOp. -/
def Obligations.OperationValueSelects : Prop :=
  ∀ w : CmdWord,
    (w.extractLsb' 16 3 = 0b000#3 → ∃ n, decode w = .encn n) ∧
    (w.extractLsb' 16 3 = 0b001#3 → ∃ y, decode w = .encb y) ∧
    (w.extractLsb' 16 3 = 0b010#3 → ∃ c en sel, decode w = .flip c en sel) ∧
    (w.extractLsb' 16 3 = 0b011#3 → ∃ c, decode w = .synd c) ∧
    (w.extractLsb' 16 3 = 0b100#3 → ∃ c, decode w = .corr c) ∧
    (w.extractLsb' 16 3 = 0b101#3 → ∃ c, decode w = .decn c) ∧
    (w.extractLsb' 16 3 = 0b110#3 → ∃ h l, decode w = .reas h l) ∧
    (w.extractLsb' 16 3 = 0b111#3 → decode w = .illegal)

/-- R58: the operand bits each operation reads, and that the other bits have no effect. -/
def Obligations.OperandBitsRead : Prop :=
  ∀ a b : Byte,
    decode (0b000#3 ++ a ++ b) = .encn (a.extractLsb' 0 4) ∧
    decode (0b001#3 ++ a ++ b) = .encb a ∧
    decode (0b010#3 ++ a ++ b) = .flip a (b.extractLsb' 3 1) (b.extractLsb' 0 3) ∧
    decode (0b011#3 ++ a ++ b) = .synd a ∧
    decode (0b100#3 ++ a ++ b) = .corr a ∧
    decode (0b101#3 ++ a ++ b) = .decn a ∧
    decode (0b110#3 ++ a ++ b) = .reas (a.extractLsb' 0 4) (b.extractLsb' 0 4) ∧
    decode (0b111#3 ++ a ++ b) = .illegal

/-- Decoding what the encoder writes gives the instruction back, with every operand at every value.
`Instr` carries its widths in its types, so this holds of the reserved row too. -/
def Obligations.DecodeOfEncode : Prop :=
  ∀ i : Instr, decode (encode i) = i

/-- Encoding what the decoder reads gives the word back with its ignored bits cleared (R58, R62). -/
def Obligations.EncodeOfDecodeClearsIgnoredBits : Prop :=
  ∀ w : CmdWord, encode (decode w) = w &&& careMask (decode w)

/-- The table of R62: the word of each command, and no word where an operand is out of its range. -/
def Obligations.AssemblerEmitsWordsInRange : Prop :=
  ∀ x y z : Nat,
    assemble (.encn x) =
      (if x ≤ 15 then some (0b000#3 ++ BitVec.ofNat 8 x ++ 0#8) else none) ∧
    assemble (.encb x) =
      (if x ≤ 255 then some (0b001#3 ++ BitVec.ofNat 8 x ++ 0#8) else none) ∧
    assemble (.flip x y z) =
      (if x ≤ 255 ∧ y ≤ 1 ∧ z ≤ 7 then
        some (0b010#3 ++ BitVec.ofNat 8 x ++ (0b0000#4 ++ BitVec.ofNat 1 y ++ BitVec.ofNat 3 z))
      else none) ∧
    assemble (.synd x) =
      (if x ≤ 255 then some (0b011#3 ++ BitVec.ofNat 8 x ++ 0#8) else none) ∧
    assemble (.corr x) =
      (if x ≤ 255 then some (0b100#3 ++ BitVec.ofNat 8 x ++ 0#8) else none) ∧
    assemble (.decn x) =
      (if x ≤ 255 then some (0b101#3 ++ BitVec.ofNat 8 x ++ 0#8) else none) ∧
    assemble (.reas x y) =
      (if x ≤ 15 ∧ y ≤ 15 then
        some (0b110#3 ++ BitVec.ofNat 8 x ++ BitVec.ofNat 8 y)
      else none)

/-- R63: each pseudo-instruction and its expansion, and no word for a `FLIPAT` position outside 1..8. That
the assembler's `CHAN` takes its draw `d` as an operand, and that `CHAN` as moves of the host is a draw and
then the `FLIP` that uses it, is the model's choice (log entry 14). -/
def Obligations.PseudoInstructionsExpand : Prop :=
  (∀ c : Nat, assemble (.pass c) = assemble (.flip c 0 0)) ∧
  (∀ c p : Nat, 1 ≤ p → p ≤ 8 → assemble (.flipAt c p) = assemble (.flip c 1 (p - 1))) ∧
  (∀ c p : Nat, p = 0 ∨ 8 < p → assemble (.flipAt c p) = none) ∧
  (∀ (c : Nat) (d : BitVec 4), assemble (.chan c d.toNat) =
    assemble (.flip c (d.extractLsb' 3 1).toNat (d.extractLsb' 0 3).toNat)) ∧
  (∀ c : Source, channelUse c = [.draw, .flipDrawn c])

/-! ### What each operation does

Each statement gives the whole next state: the fields the operation drives, every field it does not
name at zero (R26), and everything else of the three agents as it was. -/

/-- R65: `ENCN`, its encoding, its result and its corner cases. -/
def Obligations.EncnDrivesTableEntry : Prop :=
  (∀ a b : Byte, decode (0b000#3 ++ a ++ b) = .encn (a.extractLsb' 0 4)) ∧
  (∀ (n : Nibble) (s : State),
    exec (.encn n) s = .next { s with port := ⟨table n, 0#8, 0#4, 0#2, 0#4, 0#1⟩ }) ∧
  (∀ n : Nibble, syndrome (table n) = ⟨false, false, false, false⟩ ∧
    (table n).extractLsb' 4 4 = n) ∧
  table 0#4 = 0x00#8 ∧ table 5#4 = 0x55#8 ∧ table 15#4 = 0xFF#8

/-- R66: `ENCB`, its encoding and its result, the high nibble's codeword first. -/
def Obligations.EncbDrivesBothCodewords : Prop :=
  (∀ a b : Byte, decode (0b001#3 ++ a ++ b) = .encb a) ∧
  (∀ (y : Byte) (s : State),
    exec (.encb y) s = .next { s with
      port := ⟨table (y.extractLsb' 4 4), table (y.extractLsb' 0 4), 0#4, 0#2, 0#4, 0#1⟩ }) ∧
  table 0xA#4 = 0xAA#8 ∧ table 0x7#4 = 0x78#8 ∧ table 0x0#4 = 0x00#8 ∧ table 0xF#4 = 0xFF#8

/-- R59, R68: `FLIP`, its encoding, its mask, its result, and that two of them at one position cancel. -/
def Obligations.FlipXorsOneBitMask : Prop :=
  (∀ a b : Byte, decode (0b010#3 ++ a ++ b) = .flip a (b.extractLsb' 3 1) (b.extractLsb' 0 3)) ∧
  (∀ (c : Byte) (en : BitVec 1) (sel : BitVec 3) (s : State),
    exec (.flip c en sel) s = .next { s with
      port := ⟨c ^^^ (if en = 1#1 then 0x80#8 >>> sel.toNat else 0x00#8),
        0#8, 0#4, 0#2, 0#4, 0#1⟩ }) ∧
  (∀ (c : Byte) (sel : BitVec 3) (s : State), ∃ t u,
    exec (.flip c 1#1 sel) s = .next t ∧ exec (.flip t.port.r 1#1 sel) t = .next u ∧
    u.port.r = c) ∧
  (∀ s : State, ∃ t, exec (.flip 0xFF#8 1#1 2#3) s = .next t ∧ t.port.r = 0xDF#8)

/-- R74: `SYND`, its encoding, its result and its corner cases: a valid codeword, and position 8 exactly
with syndrome 0001. -/
def Obligations.SyndDrivesSyndromeAndOutcome : Prop :=
  (∀ a b : Byte, decode (0b011#3 ++ a ++ b) = .synd a) ∧
  (∀ (c : Byte) (s : State),
    exec (.synd c) s = .next { s with
      port := ⟨0#8, 0#8,
        BitVec.ofBool (syndrome c).s1 ++ BitVec.ofBool (syndrome c).s2 ++
          BitVec.ofBool (syndrome c).s3 ++ BitVec.ofBool (syndrome c).s4,
        stCode (classify (syndrome c)), posCode (classify (syndrome c)), 0#1⟩ }) ∧
  (∀ (c : Byte) (s : State), ∃ t, exec (.synd c) s = .next t ∧
    (syndrome c = ⟨false, false, false, false⟩ →
      t.port.syn = 0#4 ∧ t.port.st = 0b00#2 ∧ t.port.pos = 0#4) ∧
    (t.port.pos = 8#4 ↔ t.port.syn = 0b0001#4)) ∧
  (∀ s : State, exec (.synd 0xDF#8) s =
    .next { s with port := ⟨0#8, 0#8, 0b0111#4, 0b01#2, 3#4, 0#1⟩ })

/-- R75: `CORR`, its encoding and its result; the word flipped at the position the outcome names, and
unmodified where it names none. -/
def Obligations.CorrDrivesCorrectedWord : Prop :=
  (∀ a b : Byte, decode (0b100#3 ++ a ++ b) = .corr a) ∧
  (∀ (c : Byte) (s : State),
    exec (.corr c) s = .next { s with
      port := ⟨(match classify (syndrome c) with
          | .correctedAt p => c ^^^ (0x80#8 >>> (p - 1))
          | .clean => c
          | .uncorrectable => c), 0#8,
        BitVec.ofBool (syndrome c).s1 ++ BitVec.ofBool (syndrome c).s2 ++
          BitVec.ofBool (syndrome c).s3 ++ BitVec.ofBool (syndrome c).s4,
        stCode (classify (syndrome c)), posCode (classify (syndrome c)), 0#1⟩ }) ∧
  (∀ (c : Byte) (p : Nat), classify (syndrome c) = .correctedAt p →
    syndrome (c ^^^ (0x80#8 >>> (p - 1))) = ⟨false, false, false, false⟩) ∧
  (∀ s : State, exec (.corr 0x98#8) s =
    .next { s with port := ⟨0x99#8, 0#8, 0b0001#4, 0b01#2, 8#4, 0#1⟩ })

/-- R76: `DECN`, its encoding and its result. On an Uncorrectable word some nibble is returned, of which
nothing is said but that `r[7:4] = 0`. That it is a free value, of which `freeCtr` counts the uses and goes
up by one here, is the model's choice (log entry 3). -/
def Obligations.DecnDrivesNibbleAndWord : Prop :=
  (∀ a b : Byte, decode (0b101#3 ++ a ++ b) = .decn a) ∧
  (∀ (c : Byte) (s : State), classify (syndrome c) ≠ .uncorrectable →
    exec (.decn c) s = .next { s with
      port := ⟨((correct c).extractLsb' 4 4).setWidth 8, correct c,
        BitVec.ofBool (syndrome c).s1 ++ BitVec.ofBool (syndrome c).s2 ++
          BitVec.ofBool (syndrome c).s3 ++ BitVec.ofBool (syndrome c).s4,
        stCode (classify (syndrome c)), posCode (classify (syndrome c)), 0#1⟩ }) ∧
  (∀ (c : Byte) (s : State), classify (syndrome c) = .uncorrectable →
    ∃ n : Nibble, exec (.decn c) s = .next { s with
      port := ⟨n.setWidth 8, c,
        BitVec.ofBool (syndrome c).s1 ++ BitVec.ofBool (syndrome c).s2 ++
          BitVec.ofBool (syndrome c).s3 ++ BitVec.ofBool (syndrome c).s4,
        0b10#2, 0#4, 0#1⟩
      freeCtr := s.freeCtr + 1 }) ∧
  (∀ c : Byte, classify (syndrome c) ≠ .uncorrectable →
    syndrome (correct c) = ⟨false, false, false, false⟩) ∧
  (∀ s : State, exec (.decn 0xDF#8) s =
    .next { s with port := ⟨0x0F#8, 0xFF#8, 0b0111#4, 0b01#2, 3#4, 0#1⟩ })

/-- R82: `REAS`, its encoding and its result, `(h << 4) | l`. -/
def Obligations.ReasJoinsNibbles : Prop :=
  (∀ a b : Byte, decode (0b110#3 ++ a ++ b) = .reas (a.extractLsb' 0 4) (b.extractLsb' 0 4)) ∧
  (∀ (h l : Nibble) (s : State),
    exec (.reas h l) s = .next { s with
      port := ⟨(h.setWidth 8 <<< 4) ||| l.setWidth 8, 0#8, 0#4, 0#2, 0#4, 0#1⟩ }) ∧
  (∀ s : State, exec (.reas 0xA#4 0x7#4) s =
    .next { s with port := ⟨0xA7#8, 0#8, 0#4, 0#2, 0#4, 0#1⟩ }) ∧
  (∀ (y : Byte) (s : State), ∃ t t₁ t₂ u,
    exec (.encb y) s = .next t ∧ exec (.decn t.port.r) t = .next t₁ ∧
    exec (.decn t.port.r2) t₁ = .next t₂ ∧
    exec (.reas (t₁.port.r.extractLsb' 0 4) (t₂.port.r.extractLsb' 0 4)) t₂ = .next u ∧
    u.port.r = y)

/-- R84, R91: the operation value 111 drives `ill = 1` and every other field 0 and the run has failed; and
no other command raises it. That the transaction answers a next state, with the failed run recorded in
`faulted`, and does not stop in `Outcome.fault`, is the model's reading (log entry 5). -/
def Obligations.IllegalOpDrivesIllAndFails : Prop :=
  (∀ a b : Byte, decode (0b111#3 ++ a ++ b) = .illegal) ∧
  (∀ s : State, exec .illegal s = .next { s with
    port := ⟨0#8, 0#8, 0#4, 0#2, 0#4, 1#1⟩
    faulted := some .illegalOp }) ∧
  (∀ (i : Instr) (s : State), i.wellFormed = true →
    ∃ t, exec i s = .next t ∧ t.port.ill = 0#1 ∧ t.faulted = s.faulted)

/-- R27: the result is `F(cmd, d)`, and `d` is read only by a `DECN` that classifies Uncorrectable. Every
command completes in every state. -/
def Obligations.ResultIsFunctionOfCommandAndDraw : Prop :=
  (∀ (i : Instr) (s : State), ∃ d t, exec i s = .next t ∧ t.port = resultOf i d) ∧
  (∀ (i : Instr) (d e : Nibble), usesDraw i = false → resultOf i d = resultOf i e) ∧
  (∀ i : Instr, usesDraw i = true →
    ∃ c, i = .decn c ∧ classify (syndrome c) = .uncorrectable)

/-- R17: no transaction leaves anything in the core that a later one reads. Whatever command `j` ran
before, and in whatever state, command `i` gives the same result. -/
def Obligations.NoTransactionDependsOnAnother : Prop :=
  ∀ (i j : Instr) (s s' : State), usesDraw i = false →
    ∃ t u t', exec j s = .next t ∧ exec i t = .next u ∧ exec i s' = .next t' ∧
      u.port = t'.port

/-- The frame of every instruction: it writes the result port, and nothing else of the three agents but
the record of an IllegalOp (the reserved row; log entry 5) and the model's count of free nibbles (`DECN` of
an Uncorrectable word; log entry 3). There is no memory (R30). -/
def Obligations.ExecFrame : Prop :=
  ∀ (i : Instr) (s t : State), exec i s = .next t →
    t.cmd = s.cmd ∧ t.gen = s.gen ∧ t.drawn = s.drawn ∧ t.log = s.log ∧ t.taken = s.taken ∧
    t.stream = s.stream ∧ t.output = s.output ∧ t.moves = s.moves ∧
    (i ≠ .illegal → t.faulted = s.faulted) ∧
    (usesDraw i = false → t.freeCtr = s.freeCtr)

/-! ### The code -/

/-- R48: the sixteen entries, as `ENCN` drives them: the n-th smallest valid codeword, the nibble in
positions 1 to 4. -/
def Obligations.TableEntries : Prop :=
  ∀ (n : Nibble) (s : State), ∃ t, exec (.encn n) s = .next t ∧
    [0x00#8, 0x1E#8, 0x2D#8, 0x33#8, 0x4B#8, 0x55#8, 0x66#8, 0x78#8,
     0x87#8, 0x99#8, 0xAA#8, 0xB4#8, 0xCC#8, 0xD2#8, 0xE1#8, 0xFF#8][n.toNat]? = some t.port.r ∧
    t.port.r.extractLsb' 4 4 = n ∧
    (∃ u, exec (.synd t.port.r) t = .next u ∧ u.port.syn = 0#4) ∧
    (∀ m : Nibble, m < n → table m < t.port.r)

/-- R49: the closed form, as `ENCN` drives it. -/
def Obligations.TableClosedForm : Prop :=
  ∀ (n : Nibble) (s : State), ∃ t, exec (.encn n) s = .next t ∧
    t.port.r.extractLsb' 4 4 = n ∧
    t.port.r.getLsbD 3 = (n.getLsbD 2 ^^ n.getLsbD 1 ^^ n.getLsbD 0) ∧
    t.port.r.getLsbD 2 = (n.getLsbD 3 ^^ n.getLsbD 1 ^^ n.getLsbD 0) ∧
    t.port.r.getLsbD 1 = (n.getLsbD 3 ^^ n.getLsbD 2 ^^ n.getLsbD 0) ∧
    t.port.r.getLsbD 0 = (n.getLsbD 3 ^^ n.getLsbD 2 ^^ n.getLsbD 1)

/-- R51: total, injective, onto the set of R47, with distance at least 4 between any two entries, linear,
and systematic: the nibble appears unchanged in positions 1 to 4. -/
def Obligations.TableIsLinearDistanceFourCode : Prop :=
  (∀ (n : Nibble) (s : State), ∃ t, exec (.encn n) s = .next t ∧ t.port.r = table n) ∧
  (∀ m n : Nibble, table m = table n → m = n) ∧
  (∀ c : Byte, syndrome c = ⟨false, false, false, false⟩ ↔ ∃ n, c = table n) ∧
  (∀ m n : Nibble, m ≠ n → 4 ≤ weight (table m ^^^ table n)) ∧
  (∀ m n : Nibble, table (m ^^^ n) = table m ^^^ table n) ∧
  (∀ n : Nibble, (table n).extractLsb' 4 4 = n)

/-- R46, R47: the words with syndrome zero are exactly these sixteen, with the weights listed. -/
def Obligations.ValidCodewordsAreTheSixteen : Prop :=
  ∀ (c : Byte) (s : State), ∃ t, exec (.synd c) s = .next t ∧
    (t.port.syn = 0#4 ↔
      c ∈ [0x00#8, 0x1E#8, 0x2D#8, 0x33#8, 0x4B#8, 0x55#8, 0x66#8, 0x78#8,
           0x87#8, 0x99#8, 0xAA#8, 0xB4#8, 0xCC#8, 0xD2#8, 0xE1#8, 0xFF#8]) ∧
    (t.port.syn = 0#4 →
      weight c = if c = 0x00#8 then 0 else if c = 0xFF#8 then 8 else 4)

/-- R44, R45, R52: the syndrome `SYND` drives, by the four parity equations over the positions (position
`p` is bit index `8 - p`), s1 most significant; and it is linear. -/
def Obligations.SyndromeParityEquations : Prop :=
  ∀ (c e : Byte) (s : State), ∃ t u v,
    exec (.synd c) s = .next t ∧ exec (.synd e) s = .next u ∧
    exec (.synd (c ^^^ e)) s = .next v ∧
    t.port.syn.getLsbD 3 =
      (c.getLsbD (8 - 4) ^^ c.getLsbD (8 - 5) ^^ c.getLsbD (8 - 6) ^^ c.getLsbD (8 - 7)) ∧
    t.port.syn.getLsbD 2 =
      (c.getLsbD (8 - 2) ^^ c.getLsbD (8 - 3) ^^ c.getLsbD (8 - 6) ^^ c.getLsbD (8 - 7)) ∧
    t.port.syn.getLsbD 1 =
      (c.getLsbD (8 - 1) ^^ c.getLsbD (8 - 3) ^^ c.getLsbD (8 - 5) ^^ c.getLsbD (8 - 7)) ∧
    t.port.syn.getLsbD 0 =
      (c.getLsbD (8 - 1) ^^ c.getLsbD (8 - 2) ^^ c.getLsbD (8 - 3) ^^ c.getLsbD (8 - 4) ^^
       c.getLsbD (8 - 5) ^^ c.getLsbD (8 - 6) ^^ c.getLsbD (8 - 7) ^^ c.getLsbD (8 - 8)) ∧
    v.port.syn = t.port.syn ^^^ u.port.syn

/-- R53: the column of `H` at each position, and that with s4 = 1 the position `SYND` drives is the one
whose column equals the syndrome. -/
def Obligations.SingleBitWordsHaveTheirColumn : Prop :=
  (∀ (p : Nat) (s : State), 1 ≤ p → p ≤ 8 →
    ∃ t, exec (.synd (0x80#8 >>> (p - 1))) s = .next t ∧
      t.port.syn.toNat = if p = 8 then 1 else 2 * p + 1) ∧
  (∀ (c : Byte) (s : State), ∃ t u, exec (.synd c) s = .next t ∧
    exec (.synd (0x80#8 >>> (t.port.pos.toNat - 1))) t = .next u ∧
    (t.port.syn.getLsbD 0 = true → u.port.syn = t.port.syn))

/-- R72: the four cases of `classify`, in the fields `st` and `pos` of all three decoder operations. -/
def Obligations.OutcomeFollowsSyndrome : Prop :=
  ∀ (c : Byte) (s : State) (i : Instr), i = .synd c ∨ i = .corr c ∨ i = .decn c →
    ∃ t, exec i s = .next t ∧
      ∃ s1 s2 s3 s4 : Bool,
        t.port.syn = BitVec.ofBool s1 ++ BitVec.ofBool s2 ++ BitVec.ofBool s3 ++ BitVec.ofBool s4 ∧
        syndrome c = ⟨s1, s2, s3, s4⟩ ∧
        (t.port.st, t.port.pos.toNat) =
          if s4 = false ∧ s1 = false ∧ s2 = false ∧ s3 = false then (0b00#2, 0)
          else if s4 = false then (0b10#2, 0)
          else if s1 = false ∧ s2 = false ∧ s3 = false then (0b01#2, 8)
          else (0b01#2, 4 * s1.toNat + 2 * s2.toNat + 1 * s3.toNat)

/-- R77: zero or one error is always decoded correctly. -/
def Obligations.AtMostOneErrorIsDecoded : Prop :=
  ∀ (n : Nibble) (s : State),
    (∃ t, exec (.decn (table n)) s = .next t ∧ t.port.st = 0b00#2 ∧ t.port.r = n.setWidth 8) ∧
    (∀ p : Nat, 1 ≤ p → p ≤ 8 →
      ∃ t, exec (.decn (table n ^^^ (0x80#8 >>> (p - 1)))) s = .next t ∧
        t.port.st = 0b01#2 ∧ t.port.pos.toNat = p ∧ t.port.r = n.setWidth 8)

/-- R78: two errors are always detected, and the word is returned unmodified. -/
def Obligations.TwoErrorsAreDetected : Prop :=
  ∀ (n : Nibble) (p q : Nat) (s : State),
    1 ≤ p → p ≤ 8 → 1 ≤ q → q ≤ 8 → p ≠ q →
    ∃ t u v,
      exec (.synd (table n ^^^ (0x80#8 >>> (p - 1)) ^^^ (0x80#8 >>> (q - 1)))) s = .next t ∧
      exec (.corr (table n ^^^ (0x80#8 >>> (p - 1)) ^^^ (0x80#8 >>> (q - 1)))) s = .next u ∧
      exec (.decn (table n ^^^ (0x80#8 >>> (p - 1)) ^^^ (0x80#8 >>> (q - 1)))) s = .next v ∧
      t.port.syn.getLsbD 0 = false ∧
      t.port.syn.toNat / 2 = (p % 8) ^^^ (q % 8) ∧
      t.port.st = 0b10#2 ∧ t.port.pos = 0#4 ∧
      u.port.st = 0b10#2 ∧ u.port.pos = 0#4 ∧
      u.port.r = table n ^^^ (0x80#8 >>> (p - 1)) ^^^ (0x80#8 >>> (q - 1)) ∧
      v.port.st = 0b10#2 ∧ v.port.pos = 0#4 ∧
      v.port.r2 = table n ^^^ (0x80#8 >>> (p - 1)) ^^^ (0x80#8 >>> (q - 1))

/-- R79: what three or more errors give. An odd number is decoded as a correction, to the nibble of
another codeword; an even number is Uncorrectable, or Clean with another codeword's nibble. -/
def Obligations.ThreeOrMoreErrors : Prop :=
  (∀ (n : Nibble) (e : Byte) (s : State), 3 ≤ weight e →
    ∃ t, exec (.decn (table n ^^^ e)) s = .next t ∧
      (weight e % 2 = 1 → t.port.syn.getLsbD 0 = true ∧ t.port.st = 0b01#2 ∧
        ∃ m : Nibble, m ≠ n ∧ t.port.r = m.setWidth 8 ∧ t.port.r2 = table m) ∧
      (weight e % 2 = 0 → t.port.st = 0b10#2 ∨
        (t.port.st = 0b00#2 ∧
          ∃ m : Nibble, m ≠ n ∧ t.port.r = m.setWidth 8 ∧ t.port.r2 = table m))) ∧
  (∀ s : State,
    (∃ t, exec (.decn (0x00#8 ^^^ 0xE0#8)) s = .next t ∧
      t.port.st = 0b01#2 ∧ t.port.pos = 8#4 ∧ t.port.r2 = 0xE1#8 ∧ t.port.r = 14#8) ∧
    (∃ t, exec (.decn (0x00#8 ^^^ 0x1E#8)) s = .next t ∧
      t.port.st = 0b00#2 ∧ t.port.r = 1#8))

/-- R80: the corrected word is always valid: `SYND` of the word `CORR` gives on `r`, and of the word
`DECN` gives on `r2`, is zero whenever the outcome is not Uncorrectable. -/
def Obligations.CorrectedWordIsValid : Prop :=
  ∀ (c : Byte) (s : State), ∃ t u v w,
    exec (.corr c) s = .next t ∧ exec (.synd t.port.r) t = .next u ∧
    exec (.decn c) s = .next v ∧ exec (.synd v.port.r2) v = .next w ∧
    (t.port.st ≠ 0b10#2 → u.port.syn = 0#4 ∧ w.port.syn = 0#4)

/-- R71: at most one bit changes in the channel. -/
def Obligations.FlipChangesAtMostOneBit : Prop :=
  ∀ (c : Byte) (en : BitVec 1) (sel : BitVec 3) (s : State),
    ∃ t, exec (.flip c en sel) s = .next t ∧ weight (t.port.r ^^^ c) = en.toNat

/-- A byte encoded, each codeword passed through the channel with any draw, decoded and reassembled, is
the byte again, and no decode is Uncorrectable (R77 with the rules of the four families; W1, W5). -/
def Obligations.RoundTripThroughChannel : Prop :=
  ∀ (y : Byte) (en₁ en₂ : BitVec 1) (sel₁ sel₂ : BitVec 3) (s : State),
    ∃ t f₁ d₁ f₂ d₂ u,
      exec (.encb y) s = .next t ∧
      exec (.flip t.port.r en₁ sel₁) t = .next f₁ ∧ exec (.decn f₁.port.r) f₁ = .next d₁ ∧
      exec (.flip t.port.r2 en₂ sel₂) d₁ = .next f₂ ∧ exec (.decn f₂.port.r) f₂ = .next d₂ ∧
      exec (.reas (d₁.port.r.extractLsb' 0 4) (d₂.port.r.extractLsb' 0 4)) d₂ = .next u ∧
      d₁.port.st = BitVec.ofNat 2 en₁.toNat ∧ d₂.port.st = BitVec.ofNat 2 en₂.toNat ∧
      u.port.r = y

/-! ### The step, the host and the random source -/

/-- A step runs the decoded command: when the host's next move is to issue a word, the step is exec of
what the word decodes to, at the state in which the word is on the command port (R25, R27); around exec,
the host takes the result and logs the event of a `DECN` (R28). That it does both in the very same step
is the model's choice (log entry 7), and so are that `withFetchWord` places a move of the host (log entry
6) and that a word's number is cut to bits 18..0 (log entry 11). -/
def Obligations.StepRunsDecodedCommand : Prop :=
  (∀ (s : State) (w : CmdWord) (rest : List Move), s.moves = .issue w :: rest →
    step s =
      match exec (decode w) { s with cmd := w, moves := rest } with
      | .next t => .next { t with
          taken := ⟨t.cmd, t.port⟩ :: t.taken
          log := t.log ++ loggedEvents ⟨t.cmd, t.port⟩ }
      | .fault r => .fault r
      | .refused r => .refused r) ∧
  (∀ (s : State) (nbits w : Nat),
    (s.withFetchWord nbits w).moves = .issue (tableCmdWord nbits w) :: s.moves)

/-- A transaction is one step, whatever the word: every field of the result belongs to its command, the
command stays on the port with it, the host has both, and nothing else of the agents changes but the
log, the record of an IllegalOp and the count of free nibbles (R27, R36). The model's reading: the host
takes the result in the same step (log entry 7), the command is on the port still after that (log entry
15), and an IllegalOp is a record beside a next state (log entry 5). -/
def Obligations.TransactionIsOneStep : Prop :=
  ∀ (s : State) (w : CmdWord) (rest : List Move), s.moves = .issue w :: rest →
    ∃ d t, step s = .next t ∧
      t.port = resultOf (decode w) d ∧ t.cmd = w ∧ t.taken = ⟨w, t.port⟩ :: s.taken ∧
      t.moves = rest ∧ t.gen = s.gen ∧ t.drawn = s.drawn ∧
      t.stream = s.stream ∧ t.output = s.output ∧
      t.faulted = (if w.extractLsb' 16 3 = 0b111#3 then some .illegalOp else s.faulted)

/-- What the host logs for a transaction (R28, R81): `(st, pos)` of a `DECN` whose `st` is not Clean,
and nothing for any other command or for a Clean one. The logging is in the step of the transaction (log
entry 7). -/
def Obligations.HostLogsDecnEvents : Prop :=
  ∀ (s : State) (a b : Byte) (op : BitVec 3) (rest : List Move),
    s.moves = .issue (op ++ a ++ b) :: rest →
    ∃ t, step s = .next t ∧
      t.log = s.log ++
        (if op = 0b101#3 ∧ t.port.st ≠ 0b00#2 then [⟨t.port.st, t.port.pos⟩] else [])

/-- A routed command is the same transaction as the one whose word the host gives whole (R28), and a use
of the channel the one of the `FLIP` with the draw in `b[3:0]` (R24, R68). That the draw is then used up is
the model's choice (log entry 9). -/
def Obligations.RoutedCommandIsItsWord : Prop :=
  (∀ (s : State) (op : BitVec 3) (a b : Source) (av bv : Byte) (rest : List Move),
    s.moves = .route op a b :: rest → readSource s a = .ok av → readSource s b = .ok bv →
    step s = step { s with moves := .issue (op ++ av ++ bv) :: rest }) ∧
  (∀ (s : State) (c : Source) (cv : Byte) (d : BitVec 4) (rest : List Move),
    s.moves = .flipDrawn c :: rest → readSource s c = .ok cv → s.drawn = some d →
    step s = step { s with
      moves := .issue (0b010#3 ++ cv ++ (0#4 ++ d)) :: rest
      drawn := none })

/-- Where an operand comes from, and that a result, a codeword or a draw the host does not have is none:
the move that needs it is refused by name, whether the first operand is missing or, with the first there,
the second or the draw; so are collecting and emitting with no result taken (R28, R70, R103). The names
are the model's (log entries 8 and 9). -/
def Obligations.RoutedOperandMustExist : Prop :=
  ∀ (s : State) (rest : List Move),
    (∀ v : Byte, readSource s (.lit v) = .ok v) ∧
    (∀ (age : Nat) (x : Transaction), s.taken[age]? = some x →
      readSource s (.result age .r) = .ok x.result.r ∧
      readSource s (.result age .r2) = .ok x.result.r2 ∧
      readSource s (.result age .syn) = .ok (x.result.syn.setWidth 8) ∧
      readSource s (.result age .st) = .ok (x.result.st.setWidth 8) ∧
      readSource s (.result age .pos) = .ok (x.result.pos.setWidth 8) ∧
      readSource s (.result age .ill) = .ok (x.result.ill.setWidth 8)) ∧
    (∀ (k : Nat) (c : Byte), s.stream[k]? = some c → readSource s (.stream k) = .ok c) ∧
    (∀ (age : Nat) (f : ResultField), s.taken.length ≤ age →
      readSource s (.result age f) = .error .noResult) ∧
    (∀ k : Nat, s.stream.length ≤ k → readSource s (.stream k) = .error .noCodeword) ∧
    (∀ (op : BitVec 3) (a b : Source) (e : Refusal), s.moves = .route op a b :: rest →
      readSource s a = .error e → step s = .refused e) ∧
    (∀ (op : BitVec 3) (a b : Source) (av : Byte) (e : Refusal), s.moves = .route op a b :: rest →
      readSource s a = .ok av → readSource s b = .error e → step s = .refused e) ∧
    (∀ (c : Source) (e : Refusal), s.moves = .flipDrawn c :: rest →
      readSource s c = .error e → step s = .refused e) ∧
    (∀ (c : Source) (cv : Byte), s.moves = .flipDrawn c :: rest →
      readSource s c = .ok cv → s.drawn = none → step s = .refused .noDraw) ∧
    (s.moves = .collect :: rest → s.taken = [] → step s = .refused .noResult) ∧
    (s.moves = .emit :: rest → s.taken = [] → step s = .refused .noResult)

/-- The random source's step (R24): a pair goes to the host and the generator advances. Both are free
values of the generator's state, under no law (R69). -/
def Obligations.DrawAdvancesGenerator : Prop :=
  ∀ (s : State) (rest : List Move), s.moves = .draw :: rest →
    step s = .next { s with
      moves := rest
      drawn := some (Config.rngDraw s.gen)
      gen := Config.rngStep s.gen }

/-- One draw per codeword (R70): a use of the channel takes one fresh draw and flips with it what the host
routes to it (R24, R68). That it is two moves is log entry 14, and that no draw is left after it, so that
none serves a second codeword, is log entry 9: the model's choices. -/
def Obligations.ChannelUseTakesOneDraw : Prop :=
  ∀ (s : State) (c : Source) (cv : Byte) (rest : List Move),
    s.moves = channelUse c ++ rest → readSource s c = .ok cv →
    ∃ d t u, step s = .next t ∧ t.drawn = some d ∧ t.gen = Config.rngStep s.gen ∧
      step t = .next u ∧ u.moves = rest ∧ u.drawn = none ∧ u.gen = t.gen ∧
      u.port = ⟨cv ^^^ (if d.extractLsb' 3 1 = 1#1 then
          0x80#8 >>> (d.extractLsb' 0 3).toNat else 0x00#8), 0#8, 0#4, 0#2, 0#4, 0#1⟩

/-- R24: the core sees a draw only as operand bits of a `FLIP`, and never the generator's state. Whatever
the generator's state and the draw are, a step whose move is not the channel's `FLIP` gives the same ports,
results, log, stream and output; and that `FLIP` has the draw as its operand bits `b[3:0]` (its `b[7:4]`
are ignored bits). -/
def Obligations.CoreSeesDrawsOnlyInFlip : Prop :=
  (∀ (s t : State) (g : Nat) (dr : Option (BitVec 4)),
    (∀ c : Source, s.moves.head? ≠ some (.flipDrawn c)) → step s = .next t →
    ∃ t', step { s with gen := g, drawn := dr } = .next t' ∧
      { t' with gen := t.gen, drawn := t.drawn } = t) ∧
  (∀ (s t : State) (c : Source), s.moves.head? = some (.flipDrawn c) → step s = .next t →
    ∃ d, s.drawn = some d ∧ t.cmd.extractLsb' 16 3 = 0b010#3 ∧ t.cmd.extractLsb' 0 4 = d ∧
      t.gen = s.gen)

/-- The host's set-up (R101): it sets the generator's seed, and clears its event log. -/
def Obligations.BootSeedsAndClearsLog : Prop :=
  ∀ (s : State) (n : Nat) (rest : List Move), s.moves = bootMoves n ++ rest →
    ∃ t, step s = .next t ∧ step t = .next { s with moves := rest, gen := n, log := [] }

/-- R86: an odd number of codewords is a fatal malformed-input error of the host, before any pairing; an
even number passes. -/
def Obligations.OddStreamIsMalformedInput : Prop :=
  ∀ (s : State) (rest : List Move), s.moves = .checkStream :: rest →
    (s.stream.length % 2 = 1 → step s = .fault .malformedInput) ∧
    (s.stream.length % 2 = 0 → step s = .next { s with moves := rest })

/-- One byte of the encode stage (R67): the two codewords go to the end of the stream, the high nibble's
first. -/
def Obligations.EncodeStageAppendsTwoCodewords : Prop :=
  ∀ (s : State) (y : Byte) (rest : List Move),
    s.moves = .issue (0b001#3 ++ y ++ 0#8) :: .collect :: rest →
    ∃ t u, step s = .next t ∧ step t = .next u ∧ u.moves = rest ∧
      u.stream = s.stream ++ [table (y.extractLsb' 4 4), table (y.extractLsb' 0 4)] ∧
      u.output = s.output ∧ u.log = s.log ∧ u.gen = s.gen ∧ u.drawn = s.drawn

/-- The last two moves of a pair in the decode stage (R102): `REAS` of the two nibbles the host holds,
and the byte goes to the end of the output. -/
def Obligations.DecodeStageAppendsByte : Prop :=
  ∀ (s : State) (x y z : Transaction) (past : List Transaction) (rest : List Move),
    s.moves = .route 0b110#3 (.result 2 .r) (.result 0 .r) :: .emit :: rest →
    s.taken = z :: y :: x :: past →
    ∃ t u, step s = .next t ∧ step t = .next u ∧ u.moves = rest ∧
      u.output = s.output ++ [x.result.r.extractLsb' 0 4 ++ z.result.r.extractLsb' 0 4] ∧
      u.stream = s.stream ∧ u.log = s.log

/-- One pair of the decode stage (R70, R102): from any state in which the host is at a pair of the stream
that holds two valid codewords, with whatever draws, eight moves decode both, log nothing but corrections,
and append the byte of the two nibbles to the output. `freeCtr` is the
model's own count (log entry 3). -/
def Obligations.PairThroughChannelRestoresByte : Prop :=
  ∀ (s : State) (j : Nat) (h l : Nibble) (rest : List Move),
    s.moves = pairMoves j ++ rest →
    s.stream[2 * j]? = some (table h) → s.stream[2 * j + 1]? = some (table l) →
    ∃ t, Host.Core.run Sys2Proof.core 8 s = .next t ∧ t.moves = rest ∧
      t.output = s.output ++ [h ++ l] ∧ t.stream = s.stream ∧
      t.faulted = s.faulted ∧ t.freeCtr = s.freeCtr ∧
      ∃ events : List Event, t.log = s.log ++ events ∧ ∀ e ∈ events, e.st = 0b01#2

/-- The encode stage (R67, R102): from any state, whatever stream an earlier run left, it starts with
`E = []` and leaves the two codewords of each input byte, in order: twice the input's length, and nothing
for an empty input. `freeCtr` is the
model's own count (log entry 3). -/
def Obligations.EncodeStageMakesStream : Prop :=
  ∀ (s : State) (input : List Byte) (rest : List Move), s.moves = encodeMoves input ++ rest →
    ∃ t, Host.Core.run Sys2Proof.core (2 * input.length + 1) s = .next t ∧ t.moves = rest ∧
      t.stream = input.flatMap (fun y => [table (y.extractLsb' 4 4), table (y.extractLsb' 0 4)]) ∧
      t.stream.length = 2 * input.length ∧
      t.output = s.output ∧ t.log = s.log ∧ t.gen = s.gen ∧ t.drawn = s.drawn ∧
      t.faulted = s.faulted ∧ t.freeCtr = s.freeCtr

/-- The whole sequence of R101 and R102: from any state, whatever an earlier run left, and with whatever
draws, it leaves exactly the input bytes as output, only corrections in the log, and no fault it did not
find. That the output starts anew is log entry 16. `freeCtr` is the
model's own count (log entry 3). -/
def Obligations.PipelineRestoresInput : Prop :=
  ∀ (s : State) (seed : Nat) (input : List Byte) (rest : List Move),
    s.moves = pipeline seed input ++ rest →
    ∃ t, Host.Core.run Sys2Proof.core (10 * input.length + 5) s = .next t ∧ t.moves = rest ∧
      t.output = input ∧ t.stream.length = 2 * input.length ∧
      (∀ e ∈ t.log, e.st = 0b01#2 ∧ 1 ≤ e.pos.toNat ∧ e.pos.toNat ≤ 8) ∧
      t.faulted = s.faulted ∧ t.freeCtr = s.freeCtr

/-- A stream set as a whole and a new output (R102; log entry 16), and a host with nothing to do (log
entry 6). -/
def Obligations.LoadedStreamAndIdleHost : Prop :=
  (∀ (s : State) (e : List Byte) (rest : List Move), s.moves = .loadStream e :: rest →
    step s = .next { s with moves := rest, stream := e }) ∧
  (∀ (s : State) (rest : List Move), s.moves = .clearOutput :: rest →
    step s = .next { s with moves := rest, output := [] }) ∧
  (∀ s : State, s.moves = [] → step s = .next s)

/-! ### Invariants -/

/-- The result port only ever shows legal results (R54, R55, R60): every step keeps it. -/
def Obligations.StepKeepsLegalPort : Prop :=
  ∀ s t : State, LegalPort s → step s = .next t → LegalPort t

/-- The reset ports are the model's own choice (log entry 2); they are a legal result. -/
def Obligations.ResetPortIsLegal : Prop := LegalPort State.reset

/-- Every result the host has taken is one its command gives (R27), and the ports hold the latest command
with its result: every step keeps it. That both ports still show them after the host has taken the result,
through every move that is no transaction, is the model's reading (log entry 15): R106 holds `cmd` until
then, and no rule speaks of the ports after it. -/
def Obligations.StepKeepsSoundResults : Prop :=
  ∀ s t : State, SoundResults s → PortsHoldLatest s → step s = .next t →
    SoundResults t ∧ PortsHoldLatest t

/-- At reset there has been no transaction: that the host's list of them is empty is the model's choice (log
entry 17). -/
def Obligations.ResetHasNoResults : Prop :=
  SoundResults State.reset ∧ PortsHoldLatest State.reset ∧ State.reset.taken = []

/-- No error is silently swallowed (R81, R28): the log is an end part of the `DECN` events of the
transactions so far, in order, and every step keeps it so; and a step whose move is not the clearing of the
log drops nothing and adds exactly the event of the transaction it made, if there is one. That the event is
logged in the step of its transaction is the model's choice (log entry 7). -/
def Obligations.StepKeepsLogOfEvents : Prop :=
  ∀ s t : State, LogIsEvents s → step s = .next t →
    LogIsEvents t ∧
    (s.moves.head? ≠ some .clearLog →
      ∃ added, t.log = s.log ++ added ∧ eventsOf t.taken = eventsOf s.taken ++ added)

/-- The event log is empty at reset (R29). -/
def Obligations.ResetLogIsEmpty : Prop := State.reset.log = [] ∧ LogIsEvents State.reset

/-- The run counts as failed exactly when an IllegalOp has been issued, and for good (R84, R91): every
step keeps it. -/
def Obligations.StepKeepsFaultRecord : Prop :=
  ∀ s t : State, FaultedByIllegal s → step s = .next t →
    FaultedByIllegal t ∧ (s.faulted = some .illegalOp → t.faulted = some .illegalOp)

/-- No IllegalOp at reset (R84). That the host has no move at reset, so none to issue one, is the model's
choice (log entry 6), and so is that its transactions and the fault record are empty (log entry 17). -/
def Obligations.ResetIsSafe : Prop :=
  FaultedByIllegal State.reset ∧ Safe State.reset ∧ LegalHost State.reset ∧
    State.reset.moves = []

/-- A host that keeps its duty never to issue 111 (R28) has a run without an IllegalOp (R84): every step
keeps both. -/
def Obligations.DutifulHostStaysSafe : Prop :=
  ∀ s t : State, Safe s → LegalHost s → step s = .next t → Safe t ∧ LegalHost t
end

