-- ==== Sys2Proof/Laws/Code.lean ====
section
/-! SUPPORT. Facts about the code itself: finite checks over nibbles and received words, made once (R45 to R53, R72, R73). -/

namespace Sys2Proof.Machine

/-- The code table is the closed form of R49: the two realisations agree on all 16 inputs. -/
theorem table_bits : ∀ n : Nibble,
    hiNibble (table n) = n ∧
    (table n).getLsbD 3 = (n.getLsbD 2 ^^ n.getLsbD 1 ^^ n.getLsbD 0) ∧
    (table n).getLsbD 2 = (n.getLsbD 3 ^^ n.getLsbD 1 ^^ n.getLsbD 0) ∧
    (table n).getLsbD 1 = (n.getLsbD 3 ^^ n.getLsbD 2 ^^ n.getLsbD 0) ∧
    (table n).getLsbD 0 = (n.getLsbD 3 ^^ n.getLsbD 2 ^^ n.getLsbD 1) := by decide

/-- Every entry of the code table is a valid codeword (R46, R48). -/
theorem syndrome_table : ∀ n : Nibble, syndrome (table n) = ⟨false, false, false, false⟩ := by decide

/-- A valid codeword is the table's entry at its own high nibble (R50). -/
theorem table_nibbleOf : ∀ c : Byte,
    syndrome c = ⟨false, false, false, false⟩ → table (nibbleOf c) = c := by decide

/-- The syndrome as the exclusive ORs of the four equations, by bit index (R44, R12). -/
theorem syndrome_eq (c : Byte) : syndrome c =
    { s1 := c.getLsbD 4 ^^ c.getLsbD 3 ^^ c.getLsbD 2 ^^ c.getLsbD 1
      s2 := c.getLsbD 6 ^^ c.getLsbD 5 ^^ c.getLsbD 2 ^^ c.getLsbD 1
      s3 := c.getLsbD 7 ^^ c.getLsbD 5 ^^ c.getLsbD 3 ^^ c.getLsbD 1
      s4 := c.getLsbD 7 ^^ c.getLsbD 6 ^^ c.getLsbD 5 ^^ c.getLsbD 4 ^^
            c.getLsbD 3 ^^ c.getLsbD 2 ^^ c.getLsbD 1 ^^ c.getLsbD 0 } := by
  revert c; decide

/-- Parity is linear over exclusive OR (R14). -/
theorem parity_xor (x y : Byte) : parity (x ^^^ y) = (parity x ^^ parity y) := by
  have swap : ∀ a b c d : Bool, ((a ^^ b) ^^ (c ^^ d)) = ((a ^^ c) ^^ (b ^^ d)) := by decide
  simp only [parity, BitVec.getLsbD_xor]
  rw [swap (x.getLsbD 0), swap (_ ^^ _) _ (x.getLsbD 2), swap (_ ^^ _) _ (x.getLsbD 3),
    swap (_ ^^ _) _ (x.getLsbD 4), swap (_ ^^ _) _ (x.getLsbD 5), swap (_ ^^ _) _ (x.getLsbD 6),
    swap (_ ^^ _) _ (x.getLsbD 7)]

/-- The outcome has a position in 1..8 or none (R72). -/
theorem classify_position (s : Syndrome) (p : Nat) (h : classify s = .correctedAt p) :
    1 ≤ p ∧ p ≤ 8 := by
  obtain ⟨s1, s2, s3, s4⟩ := s
  revert h
  cases s1 <;> cases s2 <;> cases s3 <;> cases s4 <;> simp [classify] <;> omega

end Sys2Proof.Machine
end

