-- ==== Sys2Proof/Laws/Decode.lean ====
section
/-! SUPPORT. The fields of a command word, and what the decoder does with each operation value. -/

namespace Sys2Proof

@[simp] theorem opField_cmdWord (op : BitVec 3) (a b : Byte) : opField (cmdWord op a b) = op := by
  ext i hi
  simp only [opField, cmdWord, BitVec.getElem_extractLsb', BitVec.getLsbD_append]
  rw [if_neg (by omega), if_neg (by omega)]
  simp [BitVec.getLsbD_eq_getElem hi, show 16 + i - 8 - 8 = i by omega]

@[simp] theorem aField_cmdWord (op : BitVec 3) (a b : Byte) : aField (cmdWord op a b) = a := by
  ext i hi
  simp only [aField, cmdWord, BitVec.getElem_extractLsb', BitVec.getLsbD_append]
  rw [if_neg (by omega), if_pos (by omega)]
  simp [BitVec.getLsbD_eq_getElem hi, show 8 + i - 8 = i by omega]

@[simp] theorem bField_cmdWord (op : BitVec 3) (a b : Byte) : bField (cmdWord op a b) = b := by
  ext i hi
  simp only [bField, cmdWord, BitVec.getElem_extractLsb', BitVec.getLsbD_append]
  rw [if_pos (by omega)]
  simp [BitVec.getLsbD_eq_getElem hi]

/-- Every command word is the word of its three fields (R56). -/
theorem cmdWord_fields (w : CmdWord) : cmdWord (opField w) (aField w) (bField w) = w := by
  apply BitVec.eq_of_getLsbD_eq
  intro i hi
  simp only [opField, aField, bField, cmdWord, BitVec.getLsbD_append, BitVec.getLsbD_extractLsb']
  by_cases h₁ : i < 8
  · simp [h₁]
  · by_cases h₂ : i - 8 < 8
    · simp [h₁, h₂, show 8 + (i - 8) = i by omega]
    · simp [h₁, h₂, show 16 + (i - 8 - 8) = i by omega, show i - 8 - 8 < 3 by omega]

/-- The decoder by operation value (R57, R61). -/
theorem decode_cases (w : CmdWord) :
    (opField w = 0b000#3 ∧ decode w = .encn (loNibble (aField w))) ∨
    (opField w = 0b001#3 ∧ decode w = .encb (aField w)) ∨
    (opField w = 0b010#3 ∧
      decode w = .flip (aField w) (flipEnField (bField w)) (flipSelField (bField w))) ∨
    (opField w = 0b011#3 ∧ decode w = .synd (aField w)) ∨
    (opField w = 0b100#3 ∧ decode w = .corr (aField w)) ∨
    (opField w = 0b101#3 ∧ decode w = .decn (aField w)) ∨
    (opField w = 0b110#3 ∧ decode w = .reas (loNibble (aField w)) (loNibble (bField w))) ∨
    (opField w = 0b111#3 ∧ decode w = .illegal) := by
  have h : ∀ op : BitVec 3, op = 0b000#3 ∨ op = 0b001#3 ∨ op = 0b010#3 ∨ op = 0b011#3 ∨
      op = 0b100#3 ∨ op = 0b101#3 ∨ op = 0b110#3 ∨ op = 0b111#3 := by decide
  rcases h (opField w) with h | h | h | h | h | h | h | h <;> simp [decode, h]

/-- The decoder reads `op 111` as the reserved row and nothing else (R60). -/
theorem decode_eq_illegal_iff (w : CmdWord) : decode w = .illegal ↔ opField w = 0b111#3 := by
  rcases decode_cases w with ⟨h, d⟩ | ⟨h, d⟩ | ⟨h, d⟩ | ⟨h, d⟩ | ⟨h, d⟩ | ⟨h, d⟩ | ⟨h, d⟩ | ⟨h, d⟩ <;>
    simp [h, d]

end Sys2Proof
end

