-- ==== Sys2Proof/Laws/State.lean ====
section
/-! SUPPORT. What each update of the state writes and what it leaves: one lemma per update, a clause per field. -/

namespace Sys2Proof.Machine

@[simp] theorem drive_fields (res : Result) (s : State) :
    (drive res s).cmd = s.cmd ∧
    (drive res s).port = res ∧
    (drive res s).gen = s.gen ∧
    (drive res s).drawn = s.drawn ∧
    (drive res s).log = s.log ∧
    (drive res s).taken = s.taken ∧
    (drive res s).stream = s.stream ∧
    (drive res s).output = s.output ∧
    (drive res s).moves = s.moves ∧
    (drive res s).faulted = s.faulted ∧
    (drive res s).freeCtr = s.freeCtr :=
  ⟨rfl, rfl, rfl, rfl, rfl, rfl, rfl, rfl, rfl, rfl, rfl⟩

@[simp] theorem useFresh_fields (s : State) :
    (useFresh s).cmd = s.cmd ∧
    (useFresh s).port = s.port ∧
    (useFresh s).gen = s.gen ∧
    (useFresh s).drawn = s.drawn ∧
    (useFresh s).log = s.log ∧
    (useFresh s).taken = s.taken ∧
    (useFresh s).stream = s.stream ∧
    (useFresh s).output = s.output ∧
    (useFresh s).moves = s.moves ∧
    (useFresh s).faulted = s.faulted ∧
    (useFresh s).freeCtr = s.freeCtr + 1 :=
  ⟨rfl, rfl, rfl, rfl, rfl, rfl, rfl, rfl, rfl, rfl, rfl⟩

@[simp] theorem raiseIllegalOp_fields (s : State) :
    (raiseIllegalOp s).cmd = s.cmd ∧
    (raiseIllegalOp s).port = { Result.zero with ill := 1#1 } ∧
    (raiseIllegalOp s).gen = s.gen ∧
    (raiseIllegalOp s).drawn = s.drawn ∧
    (raiseIllegalOp s).log = s.log ∧
    (raiseIllegalOp s).taken = s.taken ∧
    (raiseIllegalOp s).stream = s.stream ∧
    (raiseIllegalOp s).output = s.output ∧
    (raiseIllegalOp s).moves = s.moves ∧
    (raiseIllegalOp s).faulted = some .illegalOp ∧
    (raiseIllegalOp s).freeCtr = s.freeCtr :=
  ⟨rfl, rfl, rfl, rfl, rfl, rfl, rfl, rfl, rfl, rfl, rfl⟩

@[simp] theorem present_fields (w : CmdWord) (s : State) :
    (present w s).cmd = w ∧
    (present w s).port = s.port ∧
    (present w s).gen = s.gen ∧
    (present w s).drawn = s.drawn ∧
    (present w s).log = s.log ∧
    (present w s).taken = s.taken ∧
    (present w s).stream = s.stream ∧
    (present w s).output = s.output ∧
    (present w s).moves = s.moves ∧
    (present w s).faulted = s.faulted ∧
    (present w s).freeCtr = s.freeCtr :=
  ⟨rfl, rfl, rfl, rfl, rfl, rfl, rfl, rfl, rfl, rfl, rfl⟩

@[simp] theorem takeResult_fields (s : State) :
    (takeResult s).cmd = s.cmd ∧
    (takeResult s).port = s.port ∧
    (takeResult s).gen = s.gen ∧
    (takeResult s).drawn = s.drawn ∧
    (takeResult s).log = s.log ++ loggedEvents ⟨s.cmd, s.port⟩ ∧
    (takeResult s).taken = ⟨s.cmd, s.port⟩ :: s.taken ∧
    (takeResult s).stream = s.stream ∧
    (takeResult s).output = s.output ∧
    (takeResult s).moves = s.moves ∧
    (takeResult s).faulted = s.faulted ∧
    (takeResult s).freeCtr = s.freeCtr :=
  ⟨rfl, rfl, rfl, rfl, rfl, rfl, rfl, rfl, rfl, rfl, rfl⟩

@[simp] theorem seedGenerator_fields (n : Nat) (s : State) :
    (seedGenerator n s).cmd = s.cmd ∧
    (seedGenerator n s).port = s.port ∧
    (seedGenerator n s).gen = n ∧
    (seedGenerator n s).drawn = s.drawn ∧
    (seedGenerator n s).log = s.log ∧
    (seedGenerator n s).taken = s.taken ∧
    (seedGenerator n s).stream = s.stream ∧
    (seedGenerator n s).output = s.output ∧
    (seedGenerator n s).moves = s.moves ∧
    (seedGenerator n s).faulted = s.faulted ∧
    (seedGenerator n s).freeCtr = s.freeCtr :=
  ⟨rfl, rfl, rfl, rfl, rfl, rfl, rfl, rfl, rfl, rfl, rfl⟩

@[simp] theorem takeDraw_fields (s : State) :
    (takeDraw s).cmd = s.cmd ∧
    (takeDraw s).port = s.port ∧
    (takeDraw s).gen = Config.rngStep s.gen ∧
    (takeDraw s).drawn = some (Config.rngDraw s.gen) ∧
    (takeDraw s).log = s.log ∧
    (takeDraw s).taken = s.taken ∧
    (takeDraw s).stream = s.stream ∧
    (takeDraw s).output = s.output ∧
    (takeDraw s).moves = s.moves ∧
    (takeDraw s).faulted = s.faulted ∧
    (takeDraw s).freeCtr = s.freeCtr :=
  ⟨rfl, rfl, rfl, rfl, rfl, rfl, rfl, rfl, rfl, rfl, rfl⟩

@[simp] theorem setStream_fields (e : List Byte) (s : State) :
    (setStream e s).cmd = s.cmd ∧
    (setStream e s).port = s.port ∧
    (setStream e s).gen = s.gen ∧
    (setStream e s).drawn = s.drawn ∧
    (setStream e s).log = s.log ∧
    (setStream e s).taken = s.taken ∧
    (setStream e s).stream = e ∧
    (setStream e s).output = s.output ∧
    (setStream e s).moves = s.moves ∧
    (setStream e s).faulted = s.faulted ∧
    (setStream e s).freeCtr = s.freeCtr :=
  ⟨rfl, rfl, rfl, rfl, rfl, rfl, rfl, rfl, rfl, rfl, rfl⟩

@[simp] theorem clearEvents_fields (s : State) :
    (clearEvents s).cmd = s.cmd ∧
    (clearEvents s).port = s.port ∧
    (clearEvents s).gen = s.gen ∧
    (clearEvents s).drawn = s.drawn ∧
    (clearEvents s).log = [] ∧
    (clearEvents s).taken = s.taken ∧
    (clearEvents s).stream = s.stream ∧
    (clearEvents s).output = s.output ∧
    (clearEvents s).moves = s.moves ∧
    (clearEvents s).faulted = s.faulted ∧
    (clearEvents s).freeCtr = s.freeCtr :=
  ⟨rfl, rfl, rfl, rfl, rfl, rfl, rfl, rfl, rfl, rfl, rfl⟩

@[simp] theorem dropMove_fields (s : State) :
    (dropMove s).cmd = s.cmd ∧
    (dropMove s).port = s.port ∧
    (dropMove s).gen = s.gen ∧
    (dropMove s).drawn = s.drawn ∧
    (dropMove s).log = s.log ∧
    (dropMove s).taken = s.taken ∧
    (dropMove s).stream = s.stream ∧
    (dropMove s).output = s.output ∧
    (dropMove s).moves = s.moves.tail ∧
    (dropMove s).faulted = s.faulted ∧
    (dropMove s).freeCtr = s.freeCtr :=
  ⟨rfl, rfl, rfl, rfl, rfl, rfl, rfl, rfl, rfl, rfl, rfl⟩

@[simp] theorem issueFirst_fields (w : CmdWord) (s : State) :
    (issueFirst w s).cmd = s.cmd ∧
    (issueFirst w s).port = s.port ∧
    (issueFirst w s).gen = s.gen ∧
    (issueFirst w s).drawn = s.drawn ∧
    (issueFirst w s).log = s.log ∧
    (issueFirst w s).taken = s.taken ∧
    (issueFirst w s).stream = s.stream ∧
    (issueFirst w s).output = s.output ∧
    (issueFirst w s).moves = .issue w :: s.moves ∧
    (issueFirst w s).faulted = s.faulted ∧
    (issueFirst w s).freeCtr = s.freeCtr :=
  ⟨rfl, rfl, rfl, rfl, rfl, rfl, rfl, rfl, rfl, rfl, rfl⟩

@[simp] theorem useDraw_fields (s : State) :
    (useDraw s).cmd = s.cmd ∧
    (useDraw s).port = s.port ∧
    (useDraw s).gen = s.gen ∧
    (useDraw s).drawn = none ∧
    (useDraw s).log = s.log ∧
    (useDraw s).taken = s.taken ∧
    (useDraw s).stream = s.stream ∧
    (useDraw s).output = s.output ∧
    (useDraw s).moves = s.moves ∧
    (useDraw s).faulted = s.faulted ∧
    (useDraw s).freeCtr = s.freeCtr :=
  ⟨rfl, rfl, rfl, rfl, rfl, rfl, rfl, rfl, rfl, rfl, rfl⟩

@[simp] theorem clearOutput_fields (s : State) :
    (clearOutput s).cmd = s.cmd ∧
    (clearOutput s).port = s.port ∧
    (clearOutput s).gen = s.gen ∧
    (clearOutput s).drawn = s.drawn ∧
    (clearOutput s).log = s.log ∧
    (clearOutput s).taken = s.taken ∧
    (clearOutput s).stream = s.stream ∧
    (clearOutput s).output = [] ∧
    (clearOutput s).moves = s.moves ∧
    (clearOutput s).faulted = s.faulted ∧
    (clearOutput s).freeCtr = s.freeCtr :=
  ⟨rfl, rfl, rfl, rfl, rfl, rfl, rfl, rfl, rfl, rfl, rfl⟩

end Sys2Proof.Machine
end

