-- ==== Sys2Proof/Laws/Driver.lean ====
section
/-! SUPPORT. What each operation of the host and of the random source can do when it answers a next state; and what one step can do. -/

namespace Sys2Proof.Machine

/-- A transaction that answers a next state ran the command on the presented word, and the host then
took the result (R27). -/
theorem transact_next {w : CmdWord} {s t : State} :
    transact w s = .next t ↔
      ∃ u, exec (decode w) (present w s) = .next u ∧ t = takeResult u := by
  unfold transact
  cases exec (decode w) (present w s) <;> simp [thenTake, eq_comm]

/-- A routed command that answers a next state found both its operands, and is the transaction of the
word they make (R28). -/
theorem routeCommand_next {op : BitVec 3} {a b : Source} {s t : State} :
    routeCommand op a b s = .next t ↔
      ∃ av bv, readSource s a = .ok av ∧ readSource s b = .ok bv ∧
        transact (cmdWord op av bv) s = .next t := by
  unfold routeCommand
  cases readSource s a <;> cases readSource s b <;> simp

/-- A routed command is refused for its first operand, or for its second where the first is there
(R103). -/
theorem routeCommand_refused_first {op : BitVec 3} {a b : Source} {s : State} {e : Refusal}
    (ha : readSource s a = .error e) : routeCommand op a b s = .refused e := by
  simp [routeCommand, ha]

theorem routeCommand_refused_second {op : BitVec 3} {a b : Source} {s : State} {av : Byte}
    {e : Refusal} (ha : readSource s a = .ok av) (hb : readSource s b = .error e) :
    routeCommand op a b s = .refused e := by
  simp [routeCommand, ha, hb]

/-- A use of the channel that answers a next state found its codeword and a draw, and is the transaction
of the `FLIP` they make, the draw used up (R68, R70). -/
theorem flipWithDraw_next {c : Source} {s t : State} :
    flipWithDraw c s = .next t ↔
      ∃ cv d, readSource s c = .ok cv ∧ s.drawn = some d ∧
        transact (cmdWord 0b010#3 cv (drawOperand d)) (useDraw s) = .next t := by
  unfold flipWithDraw
  cases readSource s c <;> cases s.drawn <;> simp

/-- A use of the channel without a draw is refused (R70). -/
theorem flipWithDraw_noDraw {c : Source} {s : State} {cv : Byte}
    (hc : readSource s c = .ok cv) (hd : s.drawn = none) : flipWithDraw c s = .refused .noDraw := by
  simp [flipWithDraw, hc, hd]

/-- What collecting a result leaves (R102). -/
theorem collectResult_next {s t : State} :
    collectResult s = .next t ↔
      ∃ x xs, s.taken = x :: xs ∧ t = { s with stream := s.stream ++ [x.result.r, x.result.r2] } := by
  unfold collectResult
  cases s.taken <;> simp [eq_comm]

/-- What emitting a byte leaves (R102). -/
theorem emitResult_next {s t : State} :
    emitResult s = .next t ↔
      ∃ x xs, s.taken = x :: xs ∧ t = { s with output := s.output ++ [x.result.r] } := by
  unfold emitResult
  cases s.taken <;> simp [eq_comm]

/-- The length check passes exactly on an even number of codewords (R86). -/
theorem checkLength_next {s t : State} :
    checkLength s = .next t ↔ s.stream.length % 2 = 0 ∧ t = s := by
  unfold checkLength
  split <;> simp [eq_comm] <;> omega

/-- A source gives an operand exactly in the state that holds it (R28, R103). -/
theorem readSource_ok {s : State} {src : Source} {v : Byte} :
    readSource s src = .ok v ↔
      (src = .lit v) ∨
      (∃ age f t, src = .result age f ∧ s.taken[age]? = some t ∧ v = fieldByte t.result f) ∨
      (∃ k, src = .stream k ∧ s.stream[k]? = some v) := by
  cases src with
  | lit u => simp [readSource]
  | result age f => cases h : s.taken[age]? <;> simp [readSource, h, eq_comm]
  | stream k => cases h : s.stream[k]? <;> simp [readSource, h]

/-- Everything a step that answers a next state can have done (R16, R28): nothing, for want of a move;
a transaction, with operands given or routed; or one of the moves that are no transaction, each with
what it leaves. -/
theorem step_cases {s t : State} (h : step s = .next t) :
    (s.moves = [] ∧ t = s) ∨
    (∃ w u rest, s.moves = .issue w :: rest ∧
      exec (decode w) (present w (dropMove s)) = .next u ∧ t = takeResult u) ∨
    (∃ op a b av bv u rest, s.moves = .route op a b :: rest ∧
      readSource s a = .ok av ∧ readSource s b = .ok bv ∧
      exec (decode (cmdWord op av bv)) (present (cmdWord op av bv) (dropMove s)) = .next u ∧
      t = takeResult u) ∨
    (∃ c cv d u rest, s.moves = .flipDrawn c :: rest ∧
      readSource s c = .ok cv ∧ s.drawn = some d ∧
      exec (decode (cmdWord 0b010#3 cv (drawOperand d)))
        (present (cmdWord 0b010#3 cv (drawOperand d)) (useDraw (dropMove s))) = .next u ∧
      t = takeResult u) ∨
    (∃ n rest, s.moves = .seed n :: rest ∧ t = seedGenerator n (dropMove s)) ∨
    (∃ rest, s.moves = .draw :: rest ∧ t = takeDraw (dropMove s)) ∨
    (∃ x xs rest, s.moves = .collect :: rest ∧ s.taken = x :: xs ∧
      t = { dropMove s with stream := s.stream ++ [x.result.r, x.result.r2] }) ∨
    (∃ x xs rest, s.moves = .emit :: rest ∧ s.taken = x :: xs ∧
      t = { dropMove s with output := s.output ++ [x.result.r] }) ∨
    (∃ e rest, s.moves = .loadStream e :: rest ∧ t = setStream e (dropMove s)) ∨
    (∃ rest, s.moves = .checkStream :: rest ∧ s.stream.length % 2 = 0 ∧ t = dropMove s) ∨
    (∃ rest, s.moves = .clearLog :: rest ∧ t = clearEvents (dropMove s)) ∨
    (∃ rest, s.moves = .clearOutput :: rest ∧ t = clearOutput (dropMove s)) := by
  have hr : ∀ src, readSource (dropMove s) src = readSource s src := by
    intro src; cases src <;> rfl
  unfold step runNext at h
  split at h
  · rename_i hm
    simp only [Host.Outcome.next.injEq] at h
    exact .inl ⟨hm, h.symm⟩
  · rename_i m rest hm
    cases m with
    | issue w =>
      obtain ⟨u, hu, rfl⟩ := transact_next.mp h
      exact .inr (.inl ⟨w, u, rest, hm, hu, rfl⟩)
    | route op a b =>
      obtain ⟨av, bv, ha, hb, ht⟩ := routeCommand_next.mp h
      obtain ⟨u, hu, rfl⟩ := transact_next.mp ht
      iterate 2 apply Or.inr
      exact .inl ⟨op, a, b, av, bv, u, rest, hm, hr a ▸ ha, hr b ▸ hb, hu, rfl⟩
    | flipDrawn c =>
      obtain ⟨cv, d, hc, hd, ht⟩ := flipWithDraw_next.mp h
      obtain ⟨u, hu, rfl⟩ := transact_next.mp ht
      iterate 3 apply Or.inr
      exact .inl ⟨c, cv, d, u, rest, hm, hr c ▸ hc, hd, hu, rfl⟩
    | seed n =>
      simp only [runMove, Host.Outcome.next.injEq] at h
      iterate 4 apply Or.inr
      exact .inl ⟨n, rest, hm, h.symm⟩
    | draw =>
      simp only [runMove, Host.Outcome.next.injEq] at h
      iterate 5 apply Or.inr
      exact .inl ⟨rest, hm, h.symm⟩
    | collect =>
      obtain ⟨x, xs, hx, rfl⟩ := collectResult_next.mp h
      iterate 6 apply Or.inr
      exact .inl ⟨x, xs, rest, hm, hx, rfl⟩
    | emit =>
      obtain ⟨x, xs, hx, rfl⟩ := emitResult_next.mp h
      iterate 7 apply Or.inr
      exact .inl ⟨x, xs, rest, hm, hx, rfl⟩
    | loadStream e =>
      simp only [runMove, Host.Outcome.next.injEq] at h
      iterate 8 apply Or.inr
      exact .inl ⟨e, rest, hm, h.symm⟩
    | checkStream =>
      obtain ⟨he, rfl⟩ := checkLength_next.mp h
      iterate 9 apply Or.inr
      exact .inl ⟨rest, hm, he, rfl⟩
    | clearLog =>
      simp only [runMove, Host.Outcome.next.injEq] at h
      iterate 10 apply Or.inr
      exact .inl ⟨rest, hm, h.symm⟩
    | clearOutput =>
      simp only [runMove, Host.Outcome.next.injEq] at h
      iterate 11 apply Or.inr
      exact ⟨rest, hm, h.symm⟩

end Sys2Proof.Machine
end

