-- ==== Sys2Proof/Laws/Exec.lean ====
section
/-! SUPPORT. The two faces of DECN, and the outcome an Uncorrectable word has: what a proof about DECN cites instead of unfolding it (R72, R76). -/

namespace Sys2Proof.Machine

/-- `isUncorrectable` is the case of `classify` it names (R72). -/
theorem isUncorrectable_iff : ∀ c : Byte,
    isUncorrectable c = true ↔ classify (syndrome c) = .uncorrectable := by decide

/-- An Uncorrectable word is returned unmodified (R73). -/
theorem correct_of_uncorrectable (c : Byte) (h : classify (syndrome c) = .uncorrectable) :
    correct c = c := by
  simp [correct, h, flipLocated]

/-- `DECN` of an Uncorrectable word uses one free nibble (R76). -/
theorem execDecn_uncorrectable {c : Byte} (s : State)
    (h : classify (syndrome c) = .uncorrectable) :
    execDecn c s = .next (useFresh (drive
      { outcomeResult c with r := zextNibble (freshNibble s), r2 := correct c } s)) := by
  rw [execDecn, h]; rfl

/-- `DECN` of any other word returns the nibble of the corrected word (R76). -/
theorem execDecn_decoded {c : Byte} (s : State) (h : classify (syndrome c) ≠ .uncorrectable) :
    execDecn c s = .next (drive
      { outcomeResult c with r := zextNibble (nibbleOf (correct c)), r2 := correct c } s) := by
  rw [execDecn]
  revert h
  generalize classify (syndrome c) = o
  intro h
  cases o with
  | uncorrectable => exact absurd rfl h
  | clean => rfl
  | correctedAt p => rfl

end Sys2Proof.Machine
end

