-- ==== Sys2Proof/Laws/PerInstr.lean ====
section
/-! SUPPORT. Statements about each instruction as syntax, one lemma per constructor: its word and the opcode table's row. -/

namespace Sys2Proof.Laws

/-- The row's `match` value in the opcode table (its `mask` is 0x70000 in every row). -/
def TableRow.pattern : Instr → CmdWord
  | .encn _ => 0x00000#19
  | .encb _ => 0x10000#19
  | .flip _ _ _ => 0x20000#19
  | .synd _ => 0x30000#19
  | .corr _ => 0x40000#19
  | .decn _ => 0x50000#19
  | .reas _ _ => 0x60000#19
  | .illegal => 0x70000#19

/-- The encoder's word matches the instruction's row of the opcode table, and is zero in every bit the
operation ignores (R58, R62). -/
def TableRow.Statement (i : Instr) : Prop :=
  encode i &&& 0x70000#19 = TableRow.pattern i ∧ encode i &&& careMask i = encode i

theorem TableRow.encn (n : Nibble) : TableRow.Statement (.encn n) := by
  unfold TableRow.Statement; revert n; decide

theorem TableRow.encb (y : Byte) : TableRow.Statement (.encb y) := by
  unfold TableRow.Statement; revert y; decide

theorem TableRow.flip (c : Byte) (en : BitVec 1) (sel : BitVec 3) :
    TableRow.Statement (.flip c en sel) := by
  unfold TableRow.Statement
  revert en sel c
  decide +kernel

theorem TableRow.synd (c : Byte) : TableRow.Statement (.synd c) := by
  unfold TableRow.Statement; revert c; decide

theorem TableRow.corr (c : Byte) : TableRow.Statement (.corr c) := by
  unfold TableRow.Statement; revert c; decide

theorem TableRow.decn (c : Byte) : TableRow.Statement (.decn c) := by
  unfold TableRow.Statement; revert c; decide

theorem TableRow.reas (h l : Nibble) : TableRow.Statement (.reas h l) := by
  unfold TableRow.Statement; revert h l; decide

theorem TableRow.illegal : TableRow.Statement .illegal := by
  unfold TableRow.Statement; decide

end Sys2Proof.Laws
end

