-- ==== Sys2Proof/Tests/Slice0.lean ====
section
/-! SUPPORT. Tests with results from 95_test_vectors.md and from the encoding strings of R58; ill-formed terms the checks refuse; and witnesses that the statements' hypotheses can be met. -/

namespace Sys2Proof.Tests

open Sys2Proof Sys2Proof.Machine

/-- The machine after reset, its host with the given moves to make. -/
def hostWith (ms : List Move) : State := { State.reset with moves := ms }

/-- The result port after a next state. -/
def portOf : Answer → Option Result
  | .next s => some s.port
  | .fault _ => none
  | .refused _ => none

/-- The result of one step that issues the word, from reset. -/
def resultOfWord (w : Nat) : Option Result := portOf (step (State.reset.withFetchWord 24 w))

/-! ### Ill-formed terms -/

theorem test_wellFormed_refuses_reserved_op : Instr.wellFormed .illegal = false := by decide
theorem test_asm_refuses_encn_16 : assemble (.encn 16) = none := by decide
theorem test_asm_refuses_encb_256 : assemble (.encb 256) = none := by decide
theorem test_asm_refuses_flip_ranges :
    assemble (.flip 256 0 0) = none ∧ assemble (.flip 0 2 0) = none ∧
    assemble (.flip 0 0 8) = none := by decide
theorem test_asm_refuses_decoder_256 :
    assemble (.synd 256) = none ∧ assemble (.corr 256) = none ∧ assemble (.decn 256) = none := by
  decide
theorem test_asm_refuses_reas_16 :
    assemble (.reas 16 0) = none ∧ assemble (.reas 0 16) = none := by decide
theorem test_asm_refuses_pseudo_ranges :
    assemble (.pass 256) = none ∧ assemble (.flipAt 0 0) = none ∧ assemble (.flipAt 0 9) = none ∧
    assemble (.chan 0 16) = none := by decide

/-! ### Decoding, bit by bit from the encoding strings (R58) -/

-- 000 xxxx nnnn xxxxxxxx, the ignored bits set (L2.1, raw word 0x0F5FF)
theorem test_decode_encn : decode 0b0001111010111111111#19 = .encn 0b0101#4 := by decide
-- 001 yyyyyyyy xxxxxxxx (L2.2, raw word 0x1A7FF)
theorem test_decode_encb : decode 0b0011010011111111111#19 = .encb 0b10100111#8 := by decide
-- 010 cccccccc xxxx e sss (L2.3, raw word 0x255FA)
theorem test_decode_flip :
    decode 0b0100101010111111010#19 = .flip 0b01010101#8 0b1#1 0b010#3 := by decide
-- 011 cccccccc xxxxxxxx (R74)
theorem test_decode_synd : decode 0b0111101111100000000#19 = .synd 0b11011111#8 := by decide
-- 100 cccccccc xxxxxxxx (R75)
theorem test_decode_corr : decode 0b1001001100000000000#19 = .corr 0b10011000#8 := by decide
-- 101 cccccccc xxxxxxxx (L2.6, raw word 0x5DFFF)
theorem test_decode_decn : decode 0b1011101111111111111#19 = .decn 0b11011111#8 := by decide
-- 110 xxxx hhhh xxxx llll (L2.7, raw word 0x6F3A4)
theorem test_decode_reas : decode 0b1101111001110100100#19 = .reas 0b0011#4 0b0100#4 := by decide
-- 111 xxxxxxxx xxxxxxxx (L2.8, word 0x755AA)
theorem test_decode_illegal : decode 0b1110101010110101010#19 = .illegal := by decide
-- R65, R66, R68, R74 to R76, R82: the example words, through the assembler
theorem test_assemble_examples :
    assemble (.encn 5) = some 0x00500#19 ∧ assemble (.encb 0xA7) = some 0x1A700#19 ∧
    assemble (.flipAt 0xFF 3) = some 0x2FF0A#19 ∧ assemble (.synd 0xDF) = some 0x3DF00#19 ∧
    assemble (.corr 0x98) = some 0x49800#19 ∧ assemble (.decn 0xDF) = some 0x5DF00#19 ∧
    assemble (.reas 0xA 0x7) = some 0x60A07#19 := by decide
-- R62: a line with hexadecimal and decimal numbers and a comment (P1, command 2)
theorem test_assembleLine_flip :
    assembleLine "FLIP 0xAA, 0, 3 ; second codeword".toList = some 0x2AA03#19 := by decide
-- R62: an operand out of its range is an error
theorem test_assembleLine_out_of_range : assembleLine "ENCN 16".toList = none := by decide
-- the table's numbering: the second argument holds bits 18..0
theorem test_decodeTableWord : decodeTableWord 24 0x60A07 = some (.reas 0xA#4 0x7#4) := by decide

/-! ### One step of each operation (95_test_vectors.md) -/

-- L2.1: ENCN 13, and the raw word with every ignored bit set
theorem test_encn : resultOfWord 0x00D00 = some ⟨0xD2#8, 0#8, 0#4, 0#2, 0#4, 0#1⟩ := by decide
theorem test_encn_ignored_bits :
    resultOfWord 0x0F5FF = some ⟨0x55#8, 0#8, 0#4, 0#2, 0#4, 0#1⟩ := by decide
-- L2.2: two bytes that tell the two ports apart
theorem test_encb : resultOfWord 0x1A700 = some ⟨0xAA#8, 0x78#8, 0#4, 0#2, 0#4, 0#1⟩ := by decide
theorem test_encb_low : resultOfWord 0x10100 = some ⟨0x00#8, 0x1E#8, 0#4, 0#2, 0#4, 0#1⟩ := by decide
-- L2.3: position 8, and flip_en = 0 with b[7:4] set
theorem test_flip_position_8 :
    resultOfWord 0x2000F = some ⟨0x01#8, 0#8, 0#4, 0#2, 0#4, 0#1⟩ := by decide
theorem test_flip_disabled :
    resultOfWord 0x255F0 = some ⟨0x55#8, 0#8, 0#4, 0#2, 0#4, 0#1⟩ := by decide
-- L2.4: syndrome 0001 is position 8; syndrome 1100 is Uncorrectable
theorem test_synd_position_8 :
    resultOfWord 0x30100 = some ⟨0#8, 0#8, 0b0001#4, 0b01#2, 8#4, 0#1⟩ := by decide
theorem test_synd_uncorrectable :
    resultOfWord 0x30500 = some ⟨0#8, 0#8, 0b1100#4, 0b10#2, 0#4, 0#1⟩ := by decide
-- L2.5: position 6 of table(13); L2.6: two errors leave the word unmodified
theorem test_corr : resultOfWord 0x4D600 =
    some ⟨0xD2#8, 0#8, 0b1101#4, 0b01#2, 6#4, 0#1⟩ := by decide
theorem test_corr_uncorrectable : resultOfWord 0x41100 =
    some ⟨0x11#8, 0#8, 0b1000#4, 0b10#2, 0#4, 0#1⟩ := by decide
-- L2.6: three errors, miscorrected (R79); W8: two errors, the fields that are no draw
theorem test_decn_three_errors : resultOfWord 0x5E000 =
    some ⟨0x0E#8, 0xE1#8, 0b0001#4, 0b01#2, 8#4, 0#1⟩ := by decide
theorem test_decn_uncorrectable : (resultOfWord 0x51100).map
    (fun p => (p.r2, p.syn, p.st, p.pos, p.ill)) =
    some (0x11#8, 0b1000#4, 0b10#2, 0#4, 0#1) := by decide
-- L2.7: the ignored bits never reach r
theorem test_reas : resultOfWord 0x6F3A4 = some ⟨0x34#8, 0#8, 0#4, 0#2, 0#4, 0#1⟩ := by decide
-- L2.8 and P5: ill = 1, every other field 0, the fault recorded
theorem test_illegal : resultOfWord 0x755AA = some ⟨0#8, 0#8, 0#4, 0#2, 0#4, 1#1⟩ := by decide
theorem test_illegal_recorded :
    (match step (hostWith [.issue 0x70500#19]) with
      | .next s => s.faulted
      | .fault _ => none
      | .refused _ => none) = some .illegalOp := by decide

/-! ### The host (R28, R86, R102) -/

-- W7: the log of a correction at position 3
theorem test_log_of_decn :
    (match step (hostWith [.issue 0x5DF00#19]) with
      | .next s => s.log
      | .fault _ => []
      | .refused _ => []) = [⟨0b01#2, 3#4⟩] := by decide
-- P4: CORR is an event, but the host does not log it
theorem test_no_log_of_corr :
    (match step (hostWith [.issue 0x49800#19]) with
      | .next s => s.log
      | .fault _ => []
      | .refused _ => [⟨0#2, 0#4⟩]) = [] := by decide
-- P6: an odd stream is MalformedInput
theorem test_odd_stream :
    step { hostWith [.checkStream] with stream := [0x00#8, 0x1E#8, 0x2D#8] } =
      .fault .malformedInput := rfl
-- R103: a result must exist before it is routed
theorem test_route_before_result :
    step (hostWith [.route 0b101#3 (.result 0 .r) (.lit 0#8)]) = .refused .noResult := rfl

/-! ### Witnesses: states and operands that meet the statements' hypotheses -/

theorem witness_operation_values :
    (0x00500#19).extractLsb' 16 3 = 0b000#3 ∧ (0x1A700#19).extractLsb' 16 3 = 0b001#3 ∧
    (0x2FF0A#19).extractLsb' 16 3 = 0b010#3 ∧ (0x3DF00#19).extractLsb' 16 3 = 0b011#3 ∧
    (0x49800#19).extractLsb' 16 3 = 0b100#3 ∧ (0x5DF00#19).extractLsb' 16 3 = 0b101#3 ∧
    (0x60A07#19).extractLsb' 16 3 = 0b110#3 ∧ (0x70500#19).extractLsb' 16 3 = 0b111#3 := by decide
-- AssemblerEmitsWordsInRange: both branches at the edge of each range
theorem witness_assembler_edges :
    assemble (.encn 15) = some 0x00F00#19 ∧ assemble (.encn 16) = none ∧
    assemble (.flip 255 1 7) = some 0x2FF0F#19 ∧ assemble (.flip 255 1 8) = none ∧
    assemble (.reas 15 15) = some 0x60F0F#19 ∧ assemble (.reas 15 16) = none := by decide
theorem witness_flipAt_edges :
    assemble (.flipAt 0 0) = none ∧ assemble (.flipAt 0 1) = some 0x20008#19 ∧
    assemble (.flipAt 0 8) = some 0x2000F#19 ∧ assemble (.flipAt 0 9) = none := by decide
-- DecnDrivesNibbleAndWord: a corrected word and an Uncorrectable one
theorem witness_decn_outcomes :
    classify (syndrome 0xDF#8) ≠ .uncorrectable ∧
    classify (syndrome 0x11#8) = .uncorrectable := by decide
-- IllegalOpDrivesIllAndFails, ResultIsFunctionOfCommandAndDraw, NoTransactionDependsOnAnother
theorem witness_wellFormed : Instr.wellFormed (.decn 0x11#8) = true := by decide
theorem witness_usesDraw :
    usesDraw (.decn 0x11#8) = true ∧ usesDraw (.decn 0xDF#8) = false ∧
    usesDraw (.encn 5#4) = false := by decide
-- ExecFrame: next states of both kinds the frame speaks of
theorem witness_execFrame :
    exec (.encn 5#4) State.reset =
      .next { State.reset with port := ⟨0x55#8, 0#8, 0#4, 0#2, 0#4, 0#1⟩ } := rfl
-- ValidCodewordsAreTheSixteen: a word with syndrome zero of each weight, and one without
theorem witness_valid_words :
    syndrome 0x00#8 = ⟨false, false, false, false⟩ ∧ weight 0x00#8 = 0 ∧
    syndrome 0x1E#8 = ⟨false, false, false, false⟩ ∧ weight 0x1E#8 = 4 ∧
    syndrome 0xFF#8 = ⟨false, false, false, false⟩ ∧ weight 0xFF#8 = 8 ∧
    syndrome 0x01#8 ≠ ⟨false, false, false, false⟩ := by decide
-- SingleBitWordsHaveTheirColumn, AtMostOneErrorIsDecoded, TwoErrorsAreDetected: positions 1, 7 and 8
theorem witness_positions :
    0x80#8 >>> (1 - 1) = 0x80#8 ∧ 0x80#8 >>> (7 - 1) = 0x02#8 ∧ 0x80#8 >>> (8 - 1) = 0x01#8 := by
  decide
-- SingleBitWordsHaveTheirColumn, its second part: a word with s4 = 1
theorem witness_s4 : (synField (syndrome 0x07#8)).getLsbD 0 = true := by decide
-- ThreeOrMoreErrors: an odd and an even number of errors
theorem witness_error_weights : weight 0xE0#8 = 3 ∧ weight 0x1E#8 = 4 ∧ weight 0x3F#8 = 6 := by decide
-- CorrectedWordIsValid: an outcome that is not Uncorrectable
theorem witness_corrected : stCode (classify (syndrome 0x98#8)) ≠ 0b10#2 := by decide
-- OutcomeFollowsSyndrome, CorrDrivesCorrectedWord: a word of each of the four cases
theorem witness_four_cases :
    classify (syndrome 0x00#8) = .clean ∧ classify (syndrome 0x03#8) = .uncorrectable ∧
    classify (syndrome 0x01#8) = .correctedAt 8 ∧
    classify (syndrome 0x02#8) = .correctedAt 7 := by decide
-- StepRunsDecodedCommand, TransactionIsOneStep, HostLogsDecnEvents
theorem witness_issue : (hostWith [.issue (0b101#3 ++ 0xDF#8 ++ 0x00#8)]).moves =
    .issue (0b101#3 ++ 0xDF#8 ++ 0x00#8) :: [] := rfl
-- RoutedCommandIsItsWord, ChannelUseTakesOneDraw, CoreSeesDrawsOnlyInFlip
theorem witness_channelUse :
    (hostWith (channelUse (.lit 0x55#8))).moves = channelUse (.lit 0x55#8) ++ [] ∧
    readSource (hostWith (channelUse (.lit 0x55#8))) (.lit 0x55#8) = .ok 0x55#8 := ⟨rfl, rfl⟩
-- L2.3: FLIP 0x55, 1, 2 with the draw 1010 as its operand
theorem witness_flipDrawn :
    portOf (step { hostWith [.flipDrawn (.lit 0x55#8)] with drawn := some 0b1010#4 }) =
      some ⟨0x75#8, 0#8, 0#4, 0#2, 0#4, 0#1⟩ := by decide
theorem witness_no_flipDrawn :
    (hostWith [.issue 0x00500#19]).moves.head? ≠ some (.flipDrawn (.lit 0#8)) := by decide
theorem witness_route :
    (hostWith [.route 0b110#3 (.lit 0xA#8) (.lit 0x7#8)]).moves =
      .route 0b110#3 (.lit 0xA#8) (.lit 0x7#8) :: [] := rfl
-- RoutedOperandMustExist: present and missing, each at the edge
theorem witness_sources :
    readSource { State.reset with taken := [⟨0#19, Result.zero⟩] } (.result 0 .pos) = .ok 0#8 ∧
    readSource { State.reset with taken := [⟨0#19, Result.zero⟩] } (.result 1 .pos) =
      .error .noResult ∧
    readSource { State.reset with stream := [0x1E#8] } (.stream 0) = .ok 0x1E#8 ∧
    readSource { State.reset with stream := [0x1E#8] } (.stream 1) = .error .noCodeword :=
  ⟨rfl, rfl, rfl, rfl⟩
-- RoutedOperandMustExist: the second operand of REAS, the draw, and a result to collect or emit missing
theorem witness_missing_second :
    step (hostWith [.route 0b110#3 (.lit 0xA#8) (.result 0 .r)]) = .refused .noResult := rfl
theorem witness_missing_draw :
    step (hostWith [.flipDrawn (.lit 0x55#8)]) = .refused .noDraw := rfl
theorem witness_nothing_taken :
    step (hostWith [.collect]) = .refused .noResult ∧
    step (hostWith [.emit]) = .refused .noResult := ⟨rfl, rfl⟩
-- DrawAdvancesGenerator, BootSeedsAndClearsLog, LoadedStreamAndIdleHost
theorem witness_host_moves :
    (hostWith [.draw]).moves = .draw :: [] ∧ (hostWith (bootMoves 7)).moves = bootMoves 7 ++ [] ∧
    (hostWith [.loadStream [0x1E#8]]).moves = .loadStream [0x1E#8] :: [] ∧
    (hostWith [.clearOutput]).moves = .clearOutput :: [] ∧
    State.reset.moves = [] := by decide
-- OddStreamIsMalformedInput: an odd and an even stream
theorem witness_stream_lengths :
    (hostWith [.checkStream]).moves = .checkStream :: [] ∧
    { hostWith [.checkStream] with stream := [0#8] }.stream.length % 2 = 1 ∧
    (hostWith [.checkStream]).stream.length % 2 = 0 := by decide
-- EncodeStageAppendsTwoCodewords, EncodeStageMakesStream, PipelineRestoresInput
theorem witness_encode_stage :
    (hostWith (encodeBytes [0xA7#8])).moves =
      .issue (0b001#3 ++ 0xA7#8 ++ 0#8) :: .collect :: [] ∧
    (hostWith (encodeMoves [])).moves = encodeMoves [] ++ [] ∧
    (hostWith (pipeline 1 [0xA7#8])).moves = pipeline 1 [0xA7#8] ++ [] := by decide
-- DecodeStageAppendsByte
theorem witness_decode_stage :
    { hostWith [.route 0b110#3 (.result 2 .r) (.result 0 .r), .emit] with
      taken := [⟨1#19, Result.zero⟩, ⟨2#19, Result.zero⟩, ⟨3#19, Result.zero⟩] }.taken =
    ⟨1#19, Result.zero⟩ :: ⟨2#19, Result.zero⟩ :: ⟨3#19, Result.zero⟩ :: [] := rfl
-- PairThroughChannelRestoresByte
theorem witness_pair :
    { hostWith (pairMoves 0) with stream := [0xAA#8, 0x78#8] }.stream[2 * 0]? = some (table 0xA#4) ∧
    { hostWith (pairMoves 0) with stream := [0xAA#8, 0x78#8] }.stream[2 * 0 + 1]? =
      some (table 0x7#4) := by decide
-- The invariants: a state that meets each, with a step that answers a next state
theorem witness_invariants :
    LegalPort (hostWith [.issue 0x00500#19]) ∧ SoundResults (hostWith [.issue 0x00500#19]) ∧
    PortsHoldLatest (hostWith [.issue 0x00500#19]) ∧ LogIsEvents (hostWith [.issue 0x00500#19]) ∧
    FaultedByIllegal (hostWith [.issue 0x00500#19]) ∧ Safe (hostWith [.issue 0x00500#19]) ∧
    LegalHost (hostWith [.issue 0x00500#19]) := by
  refine ⟨by decide, ?_, ?_, ?_, by decide, rfl, by decide⟩
  · intro t ht; simp [hostWith, State.reset] at ht
  · intro t ht; simp [hostWith, State.reset] at ht
  · simp [LogIsEvents, hostWith, State.reset]
theorem witness_step : portOf (step (hostWith [.issue 0x00500#19])) =
    some ⟨0x55#8, 0#8, 0#4, 0#2, 0#4, 0#1⟩ := by decide
-- StepKeepsLogOfEvents: a move that is the clearing of the log, and one that is not
theorem witness_clearLog :
    (hostWith [.clearLog]).moves.head? = some .clearLog ∧
    (hostWith [.issue 0x00500#19]).moves.head? ≠ some .clearLog := by decide
-- StepKeepsFaultRecord, its second part: a state that has faulted, by the transaction that did it
theorem witness_faulted :
    FaultedByIllegal { hostWith [] with
      taken := [⟨0x70500#19, { Result.zero with ill := 1#1 }⟩], faulted := some .illegalOp } := by
  decide

end Sys2Proof.Tests
end

/-! ## The state of the three agents

What one instruction, one transaction and one step of the host leave (R16, R17, R27, R28), and the statements
about the state that follow. -/

namespace Sys2Proof.Machine

/-! ### One instruction

`exec` completes in every state, so its answer is a function of the instruction and the state. -/

/-- The state after an instruction: its result `F(cmd, d)` on the port, `d` the free nibble at hand, with the
record of an IllegalOp and the count of free nibbles (R27, R76, R84). -/
def afterExec (i : Instr) (s : State) : State :=
  { s with
    port := resultOf i (freshNibble s)
    faulted := if i = .illegal then some .illegalOp else s.faulted
    freeCtr := if usesDraw i then s.freeCtr + 1 else s.freeCtr }

@[simp] theorem afterExec_fields (i : Instr) (s : State) :
    (afterExec i s).cmd = s.cmd ∧
    (afterExec i s).port = resultOf i (freshNibble s) ∧
    (afterExec i s).gen = s.gen ∧
    (afterExec i s).drawn = s.drawn ∧
    (afterExec i s).log = s.log ∧
    (afterExec i s).taken = s.taken ∧
    (afterExec i s).stream = s.stream ∧
    (afterExec i s).output = s.output ∧
    (afterExec i s).moves = s.moves ∧
    (afterExec i s).faulted = (if i = .illegal then some .illegalOp else s.faulted) ∧
    (afterExec i s).freeCtr = (if usesDraw i then s.freeCtr + 1 else s.freeCtr) :=
  ⟨rfl, rfl, rfl, rfl, rfl, rfl, rfl, rfl, rfl, rfl, rfl⟩

/-- `DECN` leaves what `afterExec` says, whether its word is Uncorrectable or not (R76). -/
theorem execDecn_eq (c : Byte) (s : State) : execDecn c s = .next (afterExec (.decn c) s) := by
  by_cases hc : classify (syndrome c) = .uncorrectable
  · have hu : isUncorrectable c = true := (isUncorrectable_iff c).mpr hc
    rw [execDecn_uncorrectable s hc]
    simp only [afterExec, resultOf, usesDraw, hu, if_true]
    rfl
  · have hu : isUncorrectable c = false := Bool.eq_false_iff.mpr (mt (isUncorrectable_iff c).mp hc)
    rw [execDecn_decoded s hc]
    simp only [afterExec, resultOf, usesDraw, hu, Bool.false_eq_true, if_false]
    rfl

/-- Every instruction completes in every state, with its result on the port (R27). -/
theorem exec_eq (i : Instr) (s : State) : exec i s = .next (afterExec i s) := by
  cases i with
  | decn c => exact execDecn_eq c s
  | encn n => rfl
  | encb y => rfl
  | flip c en sel => rfl
  | synd c => rfl
  | corr c => rfl
  | reas h l => rfl
  | illegal => rfl

/-- The draw reaches the result only in a `DECN` of an Uncorrectable word (R27, R76). -/
theorem resultOf_eq_of_not_usesDraw {i : Instr} (h : usesDraw i = false) (d e : Nibble) :
    resultOf i d = resultOf i e := by
  cases i with
  | decn c => simp [resultOf, show isUncorrectable c = false from h]
  | encn n => rfl
  | encb y => rfl
  | flip c en sel => rfl
  | synd c => rfl
  | corr c => rfl
  | reas h l => rfl
  | illegal => rfl

/-- Only a `DECN` of an Uncorrectable word uses a free nibble (R76). -/
theorem exists_uncorrectable_of_usesDraw {i : Instr} (h : usesDraw i = true) :
    ∃ c, i = .decn c ∧ classify (syndrome c) = .uncorrectable := by
  cases i with
  | decn c => exact ⟨c, rfl, (isUncorrectable_iff c).mp h⟩
  | _ => simp [usesDraw] at h

/-! ### One transaction -/

/-- The state after a transaction: the word on the command port, the core's answer, and the host's taking of
it (R27, R28). -/
def afterTransact (w : CmdWord) (s : State) : State :=
  takeResult (afterExec (decode w) (present w s))

/-- The transaction records an IllegalOp exactly for the operation value 111 (R84). -/
theorem afterTransact_faulted (w : CmdWord) (s : State) :
    (afterTransact w s).faulted =
      if opField w = 0b111#3 then some .illegalOp else s.faulted := by
  simp [afterTransact, decode_eq_illegal_iff]

@[simp] theorem afterTransact_fields (w : CmdWord) (s : State) :
    (afterTransact w s).cmd = w ∧
    (afterTransact w s).port = resultOf (decode w) (freshNibble s) ∧
    (afterTransact w s).gen = s.gen ∧
    (afterTransact w s).drawn = s.drawn ∧
    (afterTransact w s).log = s.log ++ loggedEvents ⟨w, resultOf (decode w) (freshNibble s)⟩ ∧
    (afterTransact w s).taken = ⟨w, resultOf (decode w) (freshNibble s)⟩ :: s.taken ∧
    (afterTransact w s).stream = s.stream ∧
    (afterTransact w s).output = s.output ∧
    (afterTransact w s).moves = s.moves ∧
    (afterTransact w s).faulted =
      (if opField w = 0b111#3 then some .illegalOp else s.faulted) ∧
    (afterTransact w s).freeCtr =
      (if usesDraw (decode w) then s.freeCtr + 1 else s.freeCtr) :=
  ⟨rfl, rfl, rfl, rfl, rfl, rfl, rfl, rfl, rfl, afterTransact_faulted w s, rfl⟩

/-- Every transaction completes (R27). -/
theorem transact_eq (w : CmdWord) (s : State) : transact w s = .next (afterTransact w s) := by
  rw [transact, exec_eq]; rfl

/-- What the host logs for the word of the given fields (R28, R81). -/
theorem loggedEvents_cmdWord (op : BitVec 3) (a b : Byte) (res : Result) :
    loggedEvents ⟨cmdWord op a b, res⟩ =
      if op = 0b101#3 ∧ res.st ≠ 0b00#2 then [⟨res.st, res.pos⟩] else [] := by
  simp [loggedEvents]

/-- A transaction adds its own event at the end of the events (R81). -/
theorem eventsOf_cons (x : Transaction) (ts : List Transaction) :
    eventsOf (x :: ts) = eventsOf ts ++ loggedEvents x := by
  have hx : loggedEvents x =
      ([x].filter (fun t => t.cmd.extractLsb' 16 3 == 0b101#3 && t.result.st != 0b00#2)).map
        (fun t => ⟨t.result.st, t.result.pos⟩) := by
    by_cases hop : x.cmd.extractLsb' 16 3 = 0b101#3 <;> by_cases hst : x.result.st = 0b00#2 <;>
      simp [loggedEvents, opField, hop, hst]
  rw [hx, eventsOf, List.reverse_cons, List.filter_append, List.map_append, eventsOf]

/-! ### One step -/

/-- The step makes the host's next move, the move off its list (R16). -/
theorem step_cons {s : State} {m : Move} {rest : List Move} (h : s.moves = m :: rest) :
    step s = runMove m { s with moves := rest } := by
  simp [step, runNext, dropMove, h]

/-- The step of a move that issues a word is its transaction (R27). -/
theorem step_issue {s : State} {w : CmdWord} {rest : List Move} (h : s.moves = .issue w :: rest) :
    step s = .next (afterTransact w { s with moves := rest }) := by
  rw [step_cons h]; exact transact_eq w _

/-- An operand comes from the results taken and from the stream, and from nothing else (R28). -/
theorem readSource_congr {s t : State} (ht : t.taken = s.taken) (hs : t.stream = s.stream)
    (src : Source) : readSource t src = readSource s src := by
  cases src <;> simp [readSource, ht, hs]

/-- The move made does not change where the next operand comes from. -/
@[simp] theorem readSource_moves (s : State) (rest : List Move) (src : Source) :
    readSource { s with moves := rest } src = readSource s src :=
  readSource_congr rfl rfl src

/-- Routing operands that are there is the transaction of their word (R28). -/
theorem routeCommand_ok {s : State} {a b : Source} {av bv : Byte} (op : BitVec 3)
    (ha : readSource s a = .ok av) (hb : readSource s b = .ok bv) :
    routeCommand op a b s = .next (afterTransact (cmdWord op av bv) s) :=
  routeCommand_next.mpr ⟨av, bv, ha, hb, transact_eq _ s⟩

/-- A use of the channel with its codeword and a draw there is the transaction of their `FLIP` (R68, R70). -/
theorem flipWithDraw_ok {s : State} {c : Source} {cv : Byte} {d : BitVec 4}
    (hc : readSource s c = .ok cv) (hd : s.drawn = some d) :
    flipWithDraw c s =
      .next (afterTransact (cmdWord 0b010#3 cv (drawOperand d)) (useDraw s)) :=
  flipWithDraw_next.mpr ⟨cv, d, hc, hd, transact_eq _ _⟩

/-- A word run on the presented state, and its result taken, is the transaction of the word. -/
theorem takeResult_of_exec {w : CmdWord} {s u : State}
    (h : exec (decode w) (present w s) = .next u) : takeResult u = afterTransact w s := by
  rw [exec_eq, Host.Outcome.next.injEq] at h
  rw [← h, afterTransact]

/-- What a transaction of the word does to the ports and to the records of the run: the command on the port
with a result of its own, both at the head of the host's list, its event at the end of the log, and an
IllegalOp recorded (R27, R81, R84). -/
structure Transacts (w : CmdWord) (s t : State) : Prop where
  cmd : t.cmd = w
  sound : Produces w t.port
  taken : t.taken = ⟨w, t.port⟩ :: s.taken
  log : t.log = s.log ++ loggedEvents ⟨w, t.port⟩
  faulted : t.faulted = if opField w = 0b111#3 then some .illegalOp else s.faulted

/-- What a move that is no transaction leaves of them: everything, but that `clearLog` empties the log. -/
structure KeepsRecords (s t : State) : Prop where
  cmd : t.cmd = s.cmd
  port : t.port = s.port
  taken : t.taken = s.taken
  faulted : t.faulted = s.faulted
  log : t.log = s.log ∨ (s.moves.head? = some .clearLog ∧ t.log = [])

/-- A step's effect on the records: what every invariant over them needs to know of it (R16, R28). -/
inductive StepEffect (s t : State) : Prop where
  /-- The move presented a word, whose operation value decides whether the move is legal. -/
  | transaction (m : Move) (w : CmdWord) (head : s.moves.head? = some m)
      (legal : legalMove m = (opField w != 0b111#3)) (effect : Transacts w s t)
  /-- There was no move, or one that is no transaction. -/
  | bookkeeping (effect : KeepsRecords s t)

/-- A transaction from a state `u` that holds the records of `s`: the move off its list, or the draw used
up. -/
theorem transacts_afterTransact (w : CmdWord) {s u : State} (ht : u.taken = s.taken)
    (hl : u.log = s.log) (hf : u.faulted = s.faulted) : Transacts w s (afterTransact w u) where
  cmd := rfl
  sound := ⟨freshNibble u, rfl⟩
  taken := by simp [ht]
  log := by simp [hl]
  faulted := by simp [hf]

/-- Every step that answers a next state has such an effect, and takes its move off the host's list. -/
theorem step_effect {s t : State} (h : step s = .next t) :
    StepEffect s t ∧ t.moves = s.moves.tail := by
  rcases step_cases h with ⟨hm, rfl⟩ | ⟨w, u, rest, hm, he, rfl⟩ |
    ⟨op, a, b, av, bv, u, rest, hm, -, -, he, rfl⟩ | ⟨c, cv, d, u, rest, hm, -, -, he, rfl⟩ |
    ⟨n, rest, -, rfl⟩ | ⟨rest, -, rfl⟩ | ⟨x, xs, rest, -, -, rfl⟩ | ⟨x, xs, rest, -, -, rfl⟩ |
    ⟨e, rest, -, rfl⟩ | ⟨rest, -, -, rfl⟩ | ⟨rest, hm, rfl⟩ | ⟨rest, -, rfl⟩
  · -- no move is left
    exact ⟨.bookkeeping ⟨rfl, rfl, rfl, rfl, .inl rfl⟩, by simp [hm]⟩
  · -- `issue`
    rw [takeResult_of_exec he]
    exact ⟨.transaction _ w (by rw [hm]; rfl) rfl (transacts_afterTransact w rfl rfl rfl), rfl⟩
  · -- `route`
    rw [takeResult_of_exec he]
    exact ⟨.transaction _ _ (by rw [hm]; rfl) (by simp [legalMove])
      (transacts_afterTransact _ rfl rfl rfl), rfl⟩
  · -- `flipDrawn`
    rw [takeResult_of_exec he]
    exact ⟨.transaction _ _ (by rw [hm]; rfl) (by simp [legalMove])
      (transacts_afterTransact _ rfl rfl rfl), rfl⟩
  iterate 6 -- `seed`, `draw`, `collect`, `emit`, `loadStream`, `checkStream`
    exact ⟨.bookkeeping ⟨rfl, rfl, rfl, rfl, .inl rfl⟩, rfl⟩
  · -- `clearLog`
    exact ⟨.bookkeeping ⟨rfl, rfl, rfl, rfl, .inr ⟨by rw [hm]; rfl, rfl⟩⟩, rfl⟩
  · -- `clearOutput`
    exact ⟨.bookkeeping ⟨rfl, rfl, rfl, rfl, .inl rfl⟩, rfl⟩

/-! ### What no transaction reads of the random source (R24) -/

/-- The random source's part of a state put to other values: the generator's state and the draw. -/
def withRandom (g : Nat) (dr : Option (BitVec 4)) (s : State) : State :=
  { s with gen := g, drawn := dr }

/-- A transaction neither reads nor writes the random source's part. -/
theorem afterTransact_withRandom (w : CmdWord) (g : Nat) (dr : Option (BitVec 4)) (s : State) :
    afterTransact w (withRandom g dr s) = withRandom g dr (afterTransact w s) := rfl

/-- Whatever the random source's part is, a move other than the channel's `FLIP` answers the same state up
to that part (R24). -/
theorem runMove_withRandom {m : Move} {s t : State} (g : Nat) (dr : Option (BitVec 4))
    (hm : ∀ c, m ≠ .flipDrawn c) (h : runMove m s = .next t) :
    ∃ g' dr', runMove m (withRandom g dr s) = .next (withRandom g' dr' t) := by
  have hr (src : Source) : readSource (withRandom g dr s) src = readSource s src :=
    readSource_congr rfl rfl src
  cases m with
  | flipDrawn c => exact absurd rfl (hm c)
  | issue w =>
    obtain rfl : afterTransact w s = t := by simpa [runMove, transact_eq] using h
    exact ⟨g, dr, by rw [runMove, transact_eq, afterTransact_withRandom]⟩
  | route op a b =>
    obtain ⟨av, bv, ha, hb, ht⟩ := routeCommand_next.mp h
    obtain rfl : afterTransact (cmdWord op av bv) s = t := by simpa [transact_eq] using ht
    exact ⟨g, dr, by
      rw [runMove, routeCommand_ok op ((hr a).trans ha) ((hr b).trans hb), afterTransact_withRandom]⟩
  | collect =>
    obtain ⟨x, xs, hx, rfl⟩ := collectResult_next.mp h
    exact ⟨g, dr, collectResult_next.mpr ⟨x, xs, hx, rfl⟩⟩
  | emit =>
    obtain ⟨x, xs, hx, rfl⟩ := emitResult_next.mp h
    exact ⟨g, dr, emitResult_next.mpr ⟨x, xs, hx, rfl⟩⟩
  | checkStream =>
    obtain ⟨he, rfl⟩ := checkLength_next.mp h
    exact ⟨g, dr, checkLength_next.mpr ⟨he, rfl⟩⟩
  | seed n => cases h; exact ⟨n, dr, rfl⟩
  | draw => cases h; exact ⟨Config.rngStep g, some (Config.rngDraw g), rfl⟩
  | loadStream e => cases h; exact ⟨g, dr, rfl⟩
  | clearLog => cases h; exact ⟨g, dr, rfl⟩
  | clearOutput => cases h; exact ⟨g, dr, rfl⟩

/-- The draw is the low half of the operand the host makes of it (R63, R68). -/
theorem draw_fields (d : BitVec 4) :
    (drawOperand d).extractLsb' 0 4 = d ∧
    flipEnField (drawOperand d) = d.extractLsb' 3 1 ∧
    flipSelField (drawOperand d) = d.extractLsb' 0 3 := by
  revert d; decide

/-- The low nibble of a command word is that of its `b` operand. -/
theorem extractLsb'_cmdWord_low (op : BitVec 3) (a b : Byte) :
    (cmdWord op a b).extractLsb' 0 4 = b.extractLsb' 0 4 := by
  ext i hi
  rw [BitVec.getElem_extractLsb', BitVec.getElem_extractLsb', cmdWord, BitVec.getLsbD_append,
    if_pos (by omega)]

/-- The `FLIP` of a codeword with a draw (R63, R68). -/
theorem decode_flipWord (cv : Byte) (d : BitVec 4) :
    decode (cmdWord 0b010#3 cv (drawOperand d)) =
      .flip cv (d.extractLsb' 3 1) (d.extractLsb' 0 3) := by
  obtain ⟨-, hen, hsel⟩ := draw_fields d
  simp [decode, hen, hsel]

/-! ### The statements -/

/-- Settles O47: a transaction's result is taken as its command gives it, and the ports hold it; every other
move leaves the ports and the results. -/
theorem stepKeepsSoundResults : Obligations.StepKeepsSoundResults := by
  intro s t hs hp h
  obtain ⟨heff, -⟩ := step_effect h
  cases heff with
  | transaction m w head legal eff =>
    constructor
    · intro x hx
      rw [eff.taken, List.mem_cons] at hx
      rcases hx with rfl | hx
      · exact eff.sound
      · exact hs x hx
    · intro x hx
      obtain rfl : ⟨w, t.port⟩ = x := by simpa [eff.taken] using hx
      exact ⟨eff.cmd, rfl⟩
  | bookkeeping keeps =>
    constructor
    · intro x hx
      exact hs x (keeps.taken ▸ hx)
    · intro x hx
      rw [keeps.cmd, keeps.port]
      exact hp x (keeps.taken ▸ hx)

/-- Settles O49: a transaction adds the same event to the log and to the events; no other move adds an event,
and only `clearLog` drops any. -/
theorem stepKeepsLogOfEvents : Obligations.StepKeepsLogOfEvents := by
  intro s t hs h
  obtain ⟨heff, -⟩ := step_effect h
  cases heff with
  | transaction m w head legal eff =>
    have hev : eventsOf t.taken = eventsOf s.taken ++ loggedEvents ⟨w, t.port⟩ := by
      rw [eff.taken, eventsOf_cons]
    refine ⟨?_, fun _ => ⟨_, eff.log, hev⟩⟩
    obtain ⟨dropped, hd⟩ := hs
    exact ⟨dropped, by rw [hev, eff.log, ← hd, List.append_assoc]⟩
  | bookkeeping keeps =>
    rw [LogIsEvents, keeps.taken]
    rcases keeps.log with hl | ⟨head, hl⟩
    · rw [hl]
      exact ⟨hs, fun _ => ⟨[], by simp⟩⟩
    · rw [hl]
      exact ⟨List.nil_suffix, fun hne => absurd head hne⟩

/-- Settles O53: only a word of operation value 111 records an IllegalOp, and no legal move presents one. -/
theorem dutifulHostStaysSafe : Obligations.DutifulHostStaysSafe := by
  intro s t hsafe hlegal h
  obtain ⟨heff, hmoves⟩ := step_effect h
  refine ⟨?_, fun m hm => hlegal m (List.mem_of_mem_tail (hmoves ▸ hm))⟩
  cases heff with
  | transaction m w head legal eff =>
    have hop : opField w ≠ 0b111#3 := by
      simpa [legal] using hlegal m (List.mem_of_head? head)
    rw [Safe, eff.faulted, if_neg hop]
    exact hsafe
  | bookkeeping keeps => exact keeps.faulted.trans hsafe

/-- Settles O16: every instruction completes with its result for the free nibble at hand. -/
theorem resultIsFunctionOfCommandAndDraw : Obligations.ResultIsFunctionOfCommandAndDraw :=
  ⟨fun i s => ⟨freshNibble s, afterExec i s, exec_eq i s, rfl⟩,
    fun _ d e h => resultOf_eq_of_not_usesDraw h d e,
    fun _ h => exists_uncorrectable_of_usesDraw h⟩

/-- Settles O17: a result depends on the state only through the draw, which this instruction does not read. -/
theorem noTransactionDependsOnAnother : Obligations.NoTransactionDependsOnAnother := by
  intro i j s s' hi
  exact ⟨_, _, _, exec_eq j s, exec_eq i _, exec_eq i s', resultOf_eq_of_not_usesDraw hi _ _⟩

/-- Settles O18: the frame is read off the state every instruction leaves. -/
theorem execFrame : Obligations.ExecFrame := by
  intro i s t h
  obtain rfl : afterExec i s = t := by simpa [exec_eq] using h
  refine ⟨rfl, rfl, rfl, rfl, rfl, rfl, rfl, rfl, fun hi => ?_, fun hu => ?_⟩
  · simp [hi]
  · simp [hu]

/-- Settles O33: the transaction is the whole step. -/
theorem transactionIsOneStep : Obligations.TransactionIsOneStep :=
  fun s w _ h => ⟨freshNibble s, _, step_issue h, rfl, rfl, rfl, rfl, rfl, rfl, rfl, rfl,
    afterTransact_faulted w _⟩

/-- Settles O34: the transaction logs the events of its word. -/
theorem hostLogsDecnEvents : Obligations.HostLogsDecnEvents := by
  intro s a b op rest h
  refine ⟨_, step_issue h, ?_⟩
  simp only [afterTransact_fields]
  rw [← loggedEvents_cmdWord op a b]
  rfl

/-- Settles O35: both moves run the transaction of the word they make. -/
theorem routedCommandIsItsWord : Obligations.RoutedCommandIsItsWord := by
  constructor
  · intro s op a b av bv rest h ha hb
    rw [step_cons h, step_issue rfl]
    exact routeCommand_ok op (by simpa using ha) (by simpa using hb)
  · intro s c cv d rest h hc hd
    rw [step_cons h, step_issue rfl]
    exact flipWithDraw_ok (by simpa using hc) hd

/-- Settles O38: the draw move takes the pair, and the `FLIP` of the channel uses it up. -/
theorem channelUseTakesOneDraw : Obligations.ChannelUseTakesOneDraw := by
  intro s c cv rest h hc
  have hdraw : step s = .next (takeDraw { s with moves := .flipDrawn c :: rest }) := step_cons h
  have hflip : step (takeDraw { s with moves := .flipDrawn c :: rest }) =
      .next (afterTransact (cmdWord 0b010#3 cv (drawOperand (Config.rngDraw s.gen)))
        (useDraw (takeDraw { s with moves := rest }))) := by
    rw [step_cons (m := .flipDrawn c) (rest := rest) rfl]
    exact flipWithDraw_ok ((readSource_congr rfl rfl c).trans hc) rfl
  refine ⟨Config.rngDraw s.gen, _, _, hdraw, rfl, rfl, hflip, rfl, rfl, rfl, ?_⟩
  simp only [afterTransact_fields, decode_flipWord]
  rfl

/-- Settles O54: no move but the channel's `FLIP` looks at the random source's part, and that one puts the draw
into its operand bits. -/
theorem coreSeesDrawsOnlyInFlip : Obligations.CoreSeesDrawsOnlyInFlip := by
  constructor
  · intro s t g dr hflip h
    cases hm : s.moves with
    | nil =>
      obtain ⟨rfl⟩ : s = t := by simpa [step, runNext, hm] using h
      exact ⟨{ s with gen := g, drawn := dr }, by simp [step, runNext, hm], rfl⟩
    | cons m rest =>
      have hne : ∀ c, m ≠ .flipDrawn c := by simpa [hm] using hflip
      rw [step_cons hm] at h
      obtain ⟨g', dr', h'⟩ := runMove_withRandom g dr hne h
      exact ⟨withRandom g' dr' t, (step_cons rfl).trans h', rfl⟩
  · intro s t c hhead h
    obtain ⟨rest, hm⟩ := List.head?_eq_some_iff.mp hhead
    rw [step_cons hm] at h
    obtain ⟨cv, d, -, hd, ht⟩ := flipWithDraw_next.mp h
    obtain rfl := by simpa [transact_eq] using ht
    refine ⟨d, hd, opField_cmdWord _ cv _, ?_, rfl⟩
    exact (extractLsb'_cmdWord_low _ cv _).trans (draw_fields d).1

/-- Settles O32: the step is the transaction, of which `exec` is the core's part and `takeResult` the host's. -/
theorem stepRunsDecodedCommand : Obligations.StepRunsDecodedCommand := by
  constructor
  · intro s w rest h
    rw [step_issue h, exec_eq]
    rfl
  · intro s nbits w
    rfl

/-- Settles O36: each source's operand from the state, and each refusal from the operand that is missing. -/
theorem routedOperandMustExist : Obligations.RoutedOperandMustExist := by
  intro s rest
  refine ⟨fun v => rfl, ?_, ?_, ?_, ?_, ?_, ?_, ?_, ?_, ?_, ?_⟩
  · intro age x hx
    simp [readSource, hx, fieldByte]
  · intro k c hk
    simp [readSource, hk]
  · intro age f hage
    simp [readSource, hage]
  · intro k hk
    simp [readSource, hk]
  · intro op a b e hm ha
    rw [step_cons hm]
    exact routeCommand_refused_first (by simpa using ha)
  · intro op a b av e hm ha hb
    rw [step_cons hm]
    exact routeCommand_refused_second (av := av) (by simpa using ha) (by simpa using hb)
  · intro c e hm hc
    simp [step_cons hm, runMove, flipWithDraw, hc]
  · intro c cv hm hc hd
    rw [step_cons hm]
    exact flipWithDraw_noDraw (cv := cv) (by simpa using hc) hd
  · intro hm ht
    simp [step_cons hm, runMove, collectResult, ht]
  · intro hm ht
    simp [step_cons hm, runMove, emitResult, ht]

/-- Settles O37: the move runs the random source's step and nothing else. -/
theorem drawAdvancesGenerator : Obligations.DrawAdvancesGenerator :=
  fun _ _ h => step_cons h

/-- Settles O39: the two moves of the set-up, one step each. -/
theorem bootSeedsAndClearsLog : Obligations.BootSeedsAndClearsLog := by
  intro s n rest h
  refine ⟨_, step_cons h, ?_⟩
  exact step_cons (m := .clearLog) (rest := rest) rfl

/-- Settles O44: each move writes its one field, and without a move the step is the identity. -/
theorem loadedStreamAndIdleHost : Obligations.LoadedStreamAndIdleHost :=
  ⟨fun _ _ _ h => step_cons h, fun _ _ h => step_cons h, fun _ h => by simp [step, runNext, h]⟩

/-- Settles O46: a finite check of one closed result. -/
theorem resetPortIsLegal : Obligations.ResetPortIsLegal := by
  unfold Obligations.ResetPortIsLegal; decide

/-- Settles O48: there is no transaction for the invariant to speak of. -/
theorem resetHasNoResults : Obligations.ResetHasNoResults := by
  refine ⟨fun x hx => ?_, fun x hx => ?_, rfl⟩
  · cases hx
  · cases hx

/-- Settles O50: the empty log is an end part of any list of events. -/
theorem resetLogIsEmpty : Obligations.ResetLogIsEmpty :=
  ⟨rfl, List.nil_suffix⟩

/-- Settles O52: there is neither a transaction nor a move. -/
theorem resetIsSafe : Obligations.ResetIsSafe := by
  refine ⟨rfl, rfl, fun m hm => ?_, rfl⟩
  cases hm

end Sys2Proof.Machine

/-! ## The encode stage

One byte of the encode stage, a run over the bytes in turn, and the stage with its start (R66, R67, R102). -/

namespace Sys2Proof.Machine

/-! ### Runs of the machine -/

/-- A run begins with a step. -/
theorem run_of_step {s t : State} (k : Nat) (h : step s = .next t) :
    Host.Core.run Sys2Proof.core (k + 1) s = Host.Core.run Sys2Proof.core k t := by
  have hcore : Sys2Proof.core.step s = .next t := h
  simp only [Host.Core.run, hcore]

/-! ### Growth of the stream -/

/-- The two codewords of a byte, the high nibble's first (R66). -/
def codewordsOf (y : Byte) : List Byte := [table (y.extractLsb' 4 4), table (y.extractLsb' 0 4)]

/-- Moves of the encode stage, made from `s`, have left the host in `t` with the moves `rest`: the codewords
`e` are at the end of the stream, and nothing outside the stream, the ports and the results taken has changed. -/
structure StreamGrows (e : List Byte) (rest : List Move) (s t : State) : Prop where
  moves : t.moves = rest
  stream : t.stream = s.stream ++ e
  output : t.output = s.output
  log : t.log = s.log
  gen : t.gen = s.gen
  drawn : t.drawn = s.drawn
  faulted : t.faulted = s.faulted
  freeCtr : t.freeCtr = s.freeCtr

/-- Growth in turn: the later codewords come after the earlier ones. -/
theorem StreamGrows.trans {e e' : List Byte} {mid rest : List Move} {s t u : State}
    (h : StreamGrows e mid s t) (h' : StreamGrows e' rest t u) :
    StreamGrows (e ++ e') rest s u where
  moves := h'.moves
  stream := by rw [h'.stream, h.stream, List.append_assoc]
  output := h'.output.trans h.output
  log := h'.log.trans h.log
  gen := h'.gen.trans h.gen
  drawn := h'.drawn.trans h.drawn
  faulted := h'.faulted.trans h.faulted
  freeCtr := h'.freeCtr.trans h.freeCtr

/-! ### One byte -/

/-- The decoder reads the word of an `ENCB` back (R57, R58). -/
theorem decode_encbWord (y : Byte) : decode (encode (.encb y)) = .encb y := by
  simp [encode, opOf, aOf, decode]

/-- The whole state after the transaction of an `ENCB`: the word and its two codewords on the ports and among
the results taken, and nothing else changed, as it is no `DECN` and no reserved word (R66, R81, R84). -/
theorem afterTransact_encb (y : Byte) (s : State) :
    afterTransact (encode (.encb y)) s =
      { s with
        cmd := encode (.encb y)
        port := resultOf (.encb y) (freshNibble s)
        taken := ⟨encode (.encb y), resultOf (.encb y) (freshNibble s)⟩ :: s.taken } := by
  have hlog (res : Result) : loggedEvents ⟨encode (.encb y), res⟩ = [] := by
    simp [encode, opOf, loggedEvents_cmdWord]
  simp [afterTransact, takeResult, afterExec, present, decode_encbWord, hlog, usesDraw, freshNibble]

/-- The step that collects the latest result appends its `r` and `r2` to the stream (R102). -/
theorem step_collect {s : State} {x : Transaction} {xs : List Transaction} {rest : List Move}
    (h : s.moves = .collect :: rest) (hx : s.taken = x :: xs) :
    step s = .next { s with
      moves := rest, stream := s.stream ++ [x.result.r, x.result.r2] } := by
  rw [step_cons h]
  exact collectResult_next.mpr ⟨x, xs, hx, rfl⟩

/-- One byte of the encode stage (R67, R102): its `ENCB`, and the collecting of the result. -/
theorem encodeByte_grows {s : State} {y : Byte} {rest : List Move}
    (h : s.moves = .issue (encode (.encb y)) :: .collect :: rest) :
    ∃ t u, step s = .next t ∧ step t = .next u ∧ StreamGrows (codewordsOf y) rest s u := by
  have hissue := step_issue h
  rw [afterTransact_encb] at hissue
  exact ⟨_, _, hissue, step_collect rfl rfl, rfl, rfl, rfl, rfl, rfl, rfl, rfl, rfl⟩

/-! ### All bytes -/

/-- The bytes in order, two steps each (R67, R102): the stream grows by the codewords of each in turn. -/
theorem encodeBytes_grows (input : List Byte) {s : State} {rest : List Move}
    (h : s.moves = encodeBytes input ++ rest) :
    ∃ t, Host.Core.run Sys2Proof.core (2 * input.length) s = .next t ∧
      StreamGrows (input.flatMap codewordsOf) rest s t := by
  induction input generalizing s with
  | nil => exact ⟨s, rfl, h, by simp, rfl, rfl, rfl, rfl, rfl, rfl⟩
  | cons y ys ih =>
    obtain ⟨t, u, hst, htu, hgrow⟩ := encodeByte_grows (y := y) (rest := encodeBytes ys ++ rest) h
    obtain ⟨v, hrun, hgrow'⟩ := ih hgrow.moves
    refine ⟨v, ?_, hgrow.trans hgrow'⟩
    calc Host.Core.run Sys2Proof.core (2 * ys.length + 1 + 1) s
      _ = Host.Core.run Sys2Proof.core (2 * ys.length + 1) t := run_of_step _ hst
      _ = Host.Core.run Sys2Proof.core (2 * ys.length) u := run_of_step _ htu
      _ = .next v := hrun

/-! ### The statements -/

/-- Settles O41: the transaction of the `ENCB`, and the collecting of its result. -/
theorem encodeStageAppendsTwoCodewords : Obligations.EncodeStageAppendsTwoCodewords := by
  intro s y rest h
  obtain ⟨t, u, hst, htu, hgrow⟩ := encodeByte_grows (y := y) h
  exact ⟨t, u, hst, htu, hgrow.moves, hgrow.stream, hgrow.output, hgrow.log, hgrow.gen, hgrow.drawn⟩

/-- Settles O55: one step empties the stream, and from there it grows by each byte's codewords, by induction
on the input. -/
theorem encodeStageMakesStream : Obligations.EncodeStageMakesStream := by
  intro s input rest h
  have hstart : step s = .next (setStream [] { s with moves := encodeBytes input ++ rest }) :=
    step_cons h
  obtain ⟨t, hrun, hgrow⟩ :=
    encodeBytes_grows input (s := setStream [] { s with moves := encodeBytes input ++ rest }) rfl
  have hstream : t.stream = input.flatMap codewordsOf := hgrow.stream
  refine ⟨t, (run_of_step _ hstart).trans hrun, hgrow.moves, hstream, ?_, hgrow.output, hgrow.log,
    hgrow.gen, hgrow.drawn, hgrow.faulted, hgrow.freeCtr⟩
  simp [hstream, codewordsOf, List.length_flatMap, Nat.mul_comm]

end Sys2Proof.Machine

/-! ## The command word

What the decoder reads and the encoder writes, field by field, and the words the assembler emits (R56 to
R63). -/

namespace Sys2Proof

/-! ### The fields of a word -/

/-- Of two nibbles joined the second is the low one (R13). -/
@[simp] theorem loNibble_append (h l : Nibble) : loNibble (h ++ l) = l :=
  BitVec.extractLsb'_append_eq_right

/-- A `FLIP` operand reads back `flip_en` (R58). -/
@[simp] theorem flipEnField_append (x : BitVec 4) (en : BitVec 1) (sel : BitVec 3) :
    flipEnField (x ++ en ++ sel) = en := by
  revert x en sel; decide

/-- A `FLIP` operand reads back `flip_sel` (R58). -/
@[simp] theorem flipSelField_append (x : BitVec 4) (en : BitVec 1) (sel : BitVec 3) :
    flipSelField (x ++ en ++ sel) = sel :=
  BitVec.extractLsb'_append_eq_right

/-- The mask keeps the low nibble, which is what `ENCN` and `REAS` read (R58). -/
theorem zero_append_loNibble (v : Byte) : 0#4 ++ loNibble v = v &&& 0x0F#8 := by
  revert v; decide

/-- The two fields a `FLIP` reads are the low nibble of its `b` operand (R58). -/
theorem zero_append_flipFields (b : Byte) :
    0#4 ++ flipEnField b ++ flipSelField b = b &&& 0x0F#8 := by
  revert b; decide

/-- Two words are masked field by field. -/
theorem cmdWord_and_cmdWord (op op' : BitVec 3) (a a' b b' : Byte) :
    cmdWord op a b &&& cmdWord op' a' b' = cmdWord (op &&& op') (a &&& a') (b &&& b') :=
  BitVec.and_append.trans (congrArg (· ++ (b &&& b')) BitVec.and_append)

/-! ### The decoder -/

/-- The decoder on a word given by its fields, one clause per row of the opcode table (R57, R58). -/
theorem decode_cmdWord (a b : Byte) :
    decode (cmdWord 0b000#3 a b) = .encn (loNibble a) ∧
    decode (cmdWord 0b001#3 a b) = .encb a ∧
    decode (cmdWord 0b010#3 a b) = .flip a (flipEnField b) (flipSelField b) ∧
    decode (cmdWord 0b011#3 a b) = .synd a ∧
    decode (cmdWord 0b100#3 a b) = .corr a ∧
    decode (cmdWord 0b101#3 a b) = .decn a ∧
    decode (cmdWord 0b110#3 a b) = .reas (loNibble a) (loNibble b) ∧
    decode (cmdWord 0b111#3 a b) = .illegal := by
  simp [decode]

/-! ### The encoder -/

/-- The bits of the `a` operand an instruction reads (R58). -/
def aMask : Instr → Byte
  | .encn _ => 0x0F#8
  | .encb _ => 0xFF#8
  | .flip _ _ _ => 0xFF#8
  | .synd _ => 0xFF#8
  | .corr _ => 0xFF#8
  | .decn _ => 0xFF#8
  | .reas _ _ => 0x0F#8
  | .illegal => 0x00#8

/-- The bits of the `b` operand an instruction reads (R58). -/
def bMask : Instr → Byte
  | .flip _ _ _ => 0x0F#8
  | .reas _ _ => 0x0F#8
  | _ => 0x00#8

/-- The mask of a whole word is the masks of its operands beside its operation value (R58). -/
theorem careMask_eq (i : Instr) : careMask i = cmdWord 0b111#3 (aMask i) (bMask i) := by
  cases i <;> simp only [careMask, aMask, bMask] <;> decide

/-- What an instruction read from a word is encoded as: the operation value, and each operand with the bits
cleared that the instruction does not read (R58, R62). -/
theorem fields_of_decode (w : CmdWord) :
    opOf (decode w) = opField w ∧
    aOf (decode w) = aField w &&& aMask (decode w) ∧
    bOf (decode w) = bField w &&& bMask (decode w) := by
  have full (v : Byte) : v &&& 0xFF#8 = v := BitVec.and_allOnes
  rcases decode_cases w with ⟨h, d⟩ | ⟨h, d⟩ | ⟨h, d⟩ | ⟨h, d⟩ | ⟨h, d⟩ | ⟨h, d⟩ | ⟨h, d⟩ | ⟨h, d⟩ <;>
    simp [h, d, opOf, aOf, bOf, aMask, bMask, full, zero_append_loNibble, zero_append_flipFields]

end Sys2Proof

namespace Sys2Proof.Machine

/-! ### The assembler -/

/-- A number that fits a nibble is the same byte as the nibble widened with zeros (R62). -/
theorem zero_append_ofNat {x : Nat} (hx : x ≤ 15) : 0#4 ++ BitVec.ofNat 4 x = BitVec.ofNat 8 x := by
  have h : ∀ x < 16, 0#4 ++ BitVec.ofNat 4 x = BitVec.ofNat 8 x := by decide
  exact h x (by omega)

/-- A command assembles to its instruction's word in range, and to no word out of range (R62). -/
theorem assemble_eq_ite {x : Asm} {P : Prop} [Decidable P] {w : CmdWord}
    (hrange : asmInRange x = true ↔ P) (hword : P → encode (asmInstr x) = w) :
    assemble x = if P then some w else none := by
  by_cases h : P
  · rw [assemble, if_pos (hrange.mpr h), if_pos h, hword h]
  · rw [assemble, if_neg (mt hrange.mp h), if_neg h]

/-- The two fields of a draw as the numbers the assembler makes of it (R63). -/
theorem toNat_draw_fields (d : BitVec 4) :
    d.toNat / 8 = (d.extractLsb' 3 1).toNat ∧ d.toNat % 8 = (d.extractLsb' 0 3).toNat := by
  revert d; decide

/-! ### The statements -/

/-- Settles O4: each operand the encoder writes is read back by its own field, row by row. -/
theorem decodeOfEncode : Obligations.DecodeOfEncode := by
  intro i
  cases i <;> simp [encode, opOf, aOf, bOf, decode_cmdWord]

/-- Settles O2: the word is the word of its three fields, and the first of them selects the row. -/
theorem operationValueSelects : Obligations.OperationValueSelects := by
  intro w
  have hw {op : BitVec 3} (h : w.extractLsb' 16 3 = op) :
      decode w = decode (cmdWord op (aField w) (bField w)) := by
    rw [← h]; exact congrArg decode (cmdWord_fields w).symm
  obtain ⟨encn, encb, flip, synd, corr, decn, reas, illegal⟩ := decode_cmdWord (aField w) (bField w)
  exact ⟨fun h => ⟨_, (hw h).trans encn⟩, fun h => ⟨_, (hw h).trans encb⟩,
    fun h => ⟨_, _, _, (hw h).trans flip⟩, fun h => ⟨_, (hw h).trans synd⟩,
    fun h => ⟨_, (hw h).trans corr⟩, fun h => ⟨_, (hw h).trans decn⟩,
    fun h => ⟨_, _, (hw h).trans reas⟩, fun h => (hw h).trans illegal⟩

/-- Settles O3: the decoder's rows, with the fields as the bits they are. -/
theorem operandBitsRead : Obligations.OperandBitsRead := decode_cmdWord

/-- Settles O5: the word of the masked fields is the masked word of the fields. -/
theorem encodeOfDecodeClearsIgnoredBits : Obligations.EncodeOfDecodeClearsIgnoredBits := by
  intro w
  obtain ⟨hop, ha, hb⟩ := fields_of_decode w
  have ones (op : BitVec 3) : op &&& 0b111#3 = op := BitVec.and_allOnes
  calc encode (decode w)
    _ = cmdWord (opField w &&& 0b111#3) (aField w &&& aMask (decode w))
          (bField w &&& bMask (decode w)) := by rw [encode, hop, ha, hb, ones]
    _ = w &&& careMask (decode w) := by
      rw [← cmdWord_and_cmdWord, cmdWord_fields, careMask_eq]

/-- Settles O6: each command with its range check, and the nibble operands widened. -/
theorem assemblerEmitsWordsInRange : Obligations.AssemblerEmitsWordsInRange := by
  intro x y z
  refine ⟨?encn, ?encb, ?flip, ?synd, ?corr, ?decn, ?reas⟩
  case encn =>
    refine assemble_eq_ite (by simp [asmInRange]) fun hx => ?_
    exact congrArg (cmdWord 0b000#3 · 0#8) (zero_append_ofNat hx)
  case flip => exact assemble_eq_ite (by simp [asmInRange, and_assoc]) fun _ => rfl
  case reas =>
    refine assemble_eq_ite (by simp [asmInRange]) fun ⟨hx, hy⟩ => ?_
    exact congrArg₂ (cmdWord 0b110#3) (zero_append_ofNat hx) (zero_append_ofNat hy)
  case encb | synd | corr | decn => exact assemble_eq_ite (by simp [asmInRange]) fun _ => rfl

/-- Settles O1: eight closed words. -/
theorem sampleWordsDecode : Obligations.SampleWordsDecode := by
  unfold Obligations.SampleWordsDecode; decide

/-- Settles O7: a pseudo-instruction and its expansion have one range check and one instruction. -/
theorem pseudoInstructionsExpand : Obligations.PseudoInstructionsExpand := by
  refine ⟨?_, ?_, ?_, ?_, fun c => rfl⟩
  · intro c
    simp [assemble, asmInRange, asmInstr]
  · intro c p h₁ h₈
    simp [assemble, asmInRange, asmInstr, h₁, h₈]
  · intro c p hp
    have hout : ¬ asmInRange (.flipAt c p) = true := by
      simp only [asmInRange, Bool.and_eq_true, decide_eq_true_eq]
      omega
    exact if_neg hout
  · intro c d
    obtain ⟨hen, hsel⟩ := toNat_draw_fields d
    have h₁ : (d.extractLsb' 3 1).toNat ≤ 1 := by omega
    have h₇ : (d.extractLsb' 0 3).toNat ≤ 7 := by omega
    have hd : d.toNat ≤ 15 := by omega
    simp only [assemble, asmInRange, asmInstr, hen, hsel, hd, h₁, h₇, decide_true, Bool.and_true]

/-- Settles O10: `FLIP`'s row of the decoder, its result, and that a mask cancels itself. -/
theorem flipXorsOneBitMask : Obligations.FlipXorsOneBitMask := by
  refine ⟨fun a b => ?_, fun c en sel s => rfl, fun c sel s => ?_, fun s => ⟨_, rfl, rfl⟩⟩
  · obtain ⟨-, -, flip, -⟩ := decode_cmdWord a b
    exact flip
  · have hcancel : c ^^^ flipMask 1#1 sel ^^^ flipMask 1#1 sel = c := by
      rw [BitVec.xor_assoc, BitVec.xor_self, BitVec.xor_zero]
    exact ⟨_, _, rfl, rfl, hcancel⟩

end Sys2Proof.Machine

/-! ## The code

Its table, its syndrome, and what the result port can show of them (R44 to R55). -/

namespace Sys2Proof.Machine

/-! ### The table -/

/-- An entry's high nibble is the nibble it encodes (R48). -/
@[simp] theorem hiNibble_table (n : Nibble) : hiNibble (table n) = n := (table_bits n).1

/-- The valid codewords are the entries of the table (R46, R47). -/
theorem syndrome_eq_zero_iff (c : Byte) :
    syndrome c = ⟨false, false, false, false⟩ ↔ ∃ n, c = table n := by
  constructor
  · intro h
    exact ⟨nibbleOf c, (table_nibbleOf c h).symm⟩
  · rintro ⟨n, rfl⟩
    exact syndrome_table n

/-- The table is linear over exclusive OR (R51). -/
theorem table_xor : ∀ m n : Nibble, table (m ^^^ n) = table m ^^^ table n := by decide

/-- An entry's weight is 0, 8 or 4, and 0 and 8 each for one word (R47). -/
theorem weight_table : ∀ n : Nibble,
    weight (table n) = if table n = 0x00#8 then 0 else if table n = 0xFF#8 then 8 else 4 := by decide

/-- Every entry but that of 0 has at least four bits set (R51). -/
theorem four_le_weight_table : ∀ n : Nibble, n ≠ 0#4 → 4 ≤ weight (table n) := by decide

/-- The entries stand in rising order (R48). -/
theorem table_lt : ∀ m n : Nibble, m < n → table m < table n := by decide

/-- The words listed in the table, by the nibble they encode (R22, R48). -/
theorem mem_codeTable_iff (c : Byte) : c ∈ codeTable.toList ↔ ∃ n, c = table n := by
  rw [Vector.mem_toList_iff, Vector.mem_iff_getElem]
  constructor
  · rintro ⟨i, hi, rfl⟩
    exact ⟨BitVec.ofNatLT i hi, rfl⟩
  · rintro ⟨n, rfl⟩
    exact ⟨n.toNat, n.isLt, rfl⟩

/-! ### The syndrome -/

/-- The bits of `syn` are the four of the syndrome (R52). -/
theorem synField_bits (s : Syndrome) :
    (synField s).getLsbD 3 = s.s1 ∧ (synField s).getLsbD 2 = s.s2 ∧
    (synField s).getLsbD 1 = s.s3 ∧ (synField s).getLsbD 0 = s.s4 := by
  obtain ⟨s1, s2, s3, s4⟩ := s
  revert s1 s2 s3 s4; decide

/-- `syn` is zero with the syndrome, and only with it (R52). -/
theorem synField_eq_zero_iff (s : Syndrome) :
    synField s = 0#4 ↔ s = ⟨false, false, false, false⟩ := by
  obtain ⟨s1, s2, s3, s4⟩ := s
  revert s1 s2 s3 s4; decide

/-- A row of `H` is linear over exclusive OR (R44). -/
theorem parity_xor_and (x y m : Byte) :
    parity ((x ^^^ y) &&& m) = (parity (x &&& m) ^^ parity (y &&& m)) := by
  have distrib : (x ^^^ y) &&& m = (x &&& m) ^^^ (y &&& m) := by
    ext i hi; simp [Bool.and_xor_distrib_right]
  rw [distrib, parity_xor]

/-- The syndrome is linear over exclusive OR, component by component (R45). -/
theorem syndrome_xor (c e : Byte) : syndrome (c ^^^ e) =
    ⟨(syndrome c).s1 ^^ (syndrome e).s1, (syndrome c).s2 ^^ (syndrome e).s2,
      (syndrome c).s3 ^^ (syndrome e).s3, (syndrome c).s4 ^^ (syndrome e).s4⟩ := by
  simp only [syndrome, parity_xor_and]

/-- `syn` of syndromes added component by component (R52). -/
theorem synField_xor (s t : Syndrome) :
    synField ⟨s.s1 ^^ t.s1, s.s2 ^^ t.s2, s.s3 ^^ t.s3, s.s4 ^^ t.s4⟩ =
      synField s ^^^ synField t := by
  obtain ⟨s1, s2, s3, s4⟩ := s
  obtain ⟨t1, t2, t3, t4⟩ := t
  revert s1 s2 s3 s4 t1 t2 t3 t4; decide

/-- The column of `H` at each position, as a number (R53). -/
theorem toNat_synField_positionBit {p : Nat} (h₁ : 1 ≤ p) (h₈ : p ≤ 8) :
    (synField (syndrome (positionBit p))).toNat = if p = 8 then 1 else 2 * p + 1 := by
  interval_cases p <;> decide

/-- With s4 = 1 the column at the position the outcome names is the syndrome itself (R53, R72). -/
theorem syndrome_positionBit_posCode (s : Syndrome) (h : s.s4 = true) :
    syndrome (positionBit (posCode (classify s)).toNat) = s := by
  obtain ⟨s1, s2, s3, s4⟩ := s
  revert s1 s2 s3 s4; decide

/-! ### Legal results -/

/-- A result without outcome fields is legal (R26, R54, R55). -/
theorem legalResult_data (r r2 : Byte) : LegalResult ⟨r, r2, 0#4, 0#2, 0#4, 0#1⟩ := by
  simp [LegalResult]

/-- A result with the outcome of a syndrome is legal, whatever its data (R54, R55, R72). -/
theorem legalResult_outcome (r r2 : Byte) (s : Syndrome) :
    LegalResult ⟨r, r2, synField s, stCode (classify s), posCode (classify s), 0#1⟩ := by
  cases h : classify s with
  | clean => simp [LegalResult, stCode, posCode]
  | correctedAt p =>
    obtain ⟨h₁, h₈⟩ := classify_position s p h
    simp [LegalResult, stCode, posCode, Nat.mod_eq_of_lt (show p < 16 by omega), h₁, h₈]
  | uncorrectable =>
    have hs : s ≠ ⟨false, false, false, false⟩ := by
      rintro rfl
      cases h
    simpa [LegalResult, stCode, posCode, synField_eq_zero_iff] using hs

/-- Every result a command can give is legal (R27). -/
theorem legalResult_resultOf (i : Instr) (d : Nibble) : LegalResult (resultOf i d) := by
  cases i with
  | encn n => exact legalResult_data _ _
  | encb y => exact legalResult_data _ _
  | flip c en sel => exact legalResult_data _ _
  | reas h l => exact legalResult_data _ _
  | synd c => exact legalResult_outcome _ _ _
  | corr c => exact legalResult_outcome _ _ _
  | decn c => exact legalResult_outcome _ _ _
  | illegal => simp [LegalResult, resultOf]

/-! ### The statements -/

/-- Settles O45: a transaction drives a result of its command, and every other move leaves the port. -/
theorem stepKeepsLegalPort : Obligations.StepKeepsLegalPort := by
  intro s t hs h
  obtain ⟨heff, -⟩ := step_effect h
  cases heff with
  | transaction m w head legal eff =>
    obtain ⟨d, hd⟩ := eff.sound
    rw [LegalPort, hd]
    exact legalResult_resultOf _ d
  | bookkeeping keeps =>
    rw [LegalPort, keeps.port]
    exact hs

/-- Settles O23: the bits of `syn` are the syndrome's, of which each is its parity equation; and a row of
`H` is linear. -/
theorem syndromeParityEquations : Obligations.SyndromeParityEquations := by
  intro c e s
  obtain ⟨h₃, h₂, h₁, h₀⟩ := synField_bits (syndrome c)
  have heq := syndrome_eq c
  have hlinear : synField (syndrome (c ^^^ e)) = synField (syndrome c) ^^^ synField (syndrome e) := by
    rw [syndrome_xor, synField_xor]
  exact ⟨_, _, _, rfl, rfl, rfl, h₃.trans (congrArg Syndrome.s1 heq),
    h₂.trans (congrArg Syndrome.s2 heq), h₁.trans (congrArg Syndrome.s3 heq),
    h₀.trans (congrArg Syndrome.s4 heq), hlinear⟩

/-- Settles O19: the entries of the table, each a valid codeword and above those of the smaller nibbles. -/
theorem tableEntries : Obligations.TableEntries := by
  intro n s
  have hentry : codeTable.toList[n.toNat]? = some (table n) := by
    rw [List.getElem?_eq_getElem n.isLt]; rfl
  refine ⟨_, rfl, hentry, hiNibble_table n, ⟨_, rfl, ?_⟩, fun m hm => table_lt m n hm⟩
  exact (synField_eq_zero_iff _).mpr (syndrome_table n)

/-- Settles O20: `ENCN` drives the table's entry, which is the closed form. -/
theorem tableClosedForm : Obligations.TableClosedForm :=
  fun n _ => ⟨_, rfl, table_bits n⟩

/-- Settles O21: injective as the nibble is in the entry; linear, so that the distance of two entries is the
weight of a third, which is not the entry of 0. -/
theorem tableIsLinearDistanceFourCode : Obligations.TableIsLinearDistanceFourCode := by
  refine ⟨fun n s => ⟨_, rfl, rfl⟩, fun m n h => ?_, syndrome_eq_zero_iff, fun m n hne => ?_, table_xor,
    hiNibble_table⟩
  · rw [← hiNibble_table m, h, hiNibble_table]
  · rw [← table_xor]
    exact four_le_weight_table _ fun h => hne (BitVec.xor_eq_zero_iff.mp h)

/-- Settles O22: syndrome zero makes the word an entry of the table, with that entry's weight. -/
theorem validCodewordsAreTheSixteen : Obligations.ValidCodewordsAreTheSixteen := by
  intro c s
  have hvalid : synField (syndrome c) = 0#4 ↔ ∃ n, c = table n :=
    (synField_eq_zero_iff _).trans (syndrome_eq_zero_iff c)
  refine ⟨_, rfl, hvalid.trans (mem_codeTable_iff c).symm, fun h => ?_⟩
  obtain ⟨n, rfl⟩ := hvalid.mp h
  exact weight_table n

/-- Settles O24: the columns one by one, and the position formula by the four bits of the syndrome. -/
theorem singleBitWordsHaveTheirColumn : Obligations.SingleBitWordsHaveTheirColumn := by
  constructor
  · intro p s h₁ h₈
    exact ⟨_, rfl, toNat_synField_positionBit h₁ h₈⟩
  · intro c s
    refine ⟨_, _, rfl, rfl, fun h => ?_⟩
    obtain ⟨-, -, -, h₀⟩ := synField_bits (syndrome c)
    exact congrArg synField (syndrome_positionBit_posCode _ (h₀.symm.trans h))

end Sys2Proof.Machine

/-! ## The channel and the pipeline

A codeword through the channel and the decoder, whatever the draw, and from it the decode stage and the whole
run of the host (R68 to R70, R76, R77, R101, R102). -/

namespace Sys2Proof.Machine

/-! ### A codeword with at most one error -/

/-- What the decoder finds after the channel: the flipped position, or nothing (R59, R72). -/
def channelOutcome (en : BitVec 1) (sel : BitVec 3) : CorrectionOutcome :=
  if en = 1#1 then .correctedAt (sel.toNat + 1) else .clean

/-- A valid codeword adds nothing to the syndrome of an error pattern (R45, R46). -/
theorem syndrome_table_xor (n : Nibble) (e : Byte) : syndrome (table n ^^^ e) = syndrome e := by
  simp [syndrome_xor, syndrome_table]

/-- The outcome of each error pattern the channel can make (R59, R72). -/
theorem classify_flipMask : ∀ (en : BitVec 1) (sel : BitVec 3),
    classify (syndrome (flipMask en sel)) = channelOutcome en sel := by decide

/-- Flipping the located bit undoes the channel's flip (R59, R73). -/
theorem flipLocated_xor_flipMask (c : Byte) (en : BitVec 1) (sel : BitVec 3) :
    flipLocated (c ^^^ flipMask en sel) (channelOutcome en sel) = c := by
  by_cases h : en = 1#1
  · simp [channelOutcome, flipMask, flipLocated, positionBit, h]
  · simp [channelOutcome, flipMask, flipLocated, h]

/-- The outcome class says whether the channel flipped a bit (R54, R68). -/
theorem stCode_channelOutcome : ∀ (en : BitVec 1) (sel : BitVec 3),
    stCode (channelOutcome en sel) = BitVec.ofNat 2 en.toNat := by decide

/-- The outcome of a codeword after the channel depends on the draw alone. -/
theorem classify_channel (n : Nibble) (en : BitVec 1) (sel : BitVec 3) :
    classify (syndrome (table n ^^^ flipMask en sel)) = channelOutcome en sel := by
  rw [syndrome_table_xor, classify_flipMask]

/-- A codeword after the channel is not Uncorrectable, whatever the draw (R77). -/
theorem isUncorrectable_channel (n : Nibble) (en : BitVec 1) (sel : BitVec 3) :
    isUncorrectable (table n ^^^ flipMask en sel) = false := by
  rw [Bool.eq_false_iff, Ne, isUncorrectable_iff, classify_channel, channelOutcome]
  split <;> simp

/-- Correction gives the codeword back that went into the channel (R73, R77). -/
theorem correct_channel (n : Nibble) (en : BitVec 1) (sel : BitVec 3) :
    correct (table n ^^^ flipMask en sel) = table n := by
  rw [correct, classify_channel, flipLocated_xor_flipMask]

/-- `DECN` of a codeword after the channel: the nibble, and the outcome class of the draw (R76, R77). -/
theorem resultOf_decn_channel (n : Nibble) (en : BitVec 1) (sel : BitVec 3) (d : Nibble) :
    (resultOf (.decn (table n ^^^ flipMask en sel)) d).r = n.setWidth 8 ∧
    (resultOf (.decn (table n ^^^ flipMask en sel)) d).st = BitVec.ofNat 2 en.toNat := by
  have hn : (table n).extractLsb' 4 4 = n := hiNibble_table n
  simp [resultOf, isUncorrectable_channel, correct_channel, classify_channel, hn,
    stCode_channelOutcome]

/-- A nibble in a result field reads back as itself (R11, R58). -/
@[simp] theorem loNibble_setWidth (n : Nibble) : loNibble (n.setWidth 8) = n := by
  revert n; decide

/-- A byte is its two nibbles joined (R13, R82). -/
theorem hiNibble_append_loNibble (y : Byte) : hiNibble y ++ loNibble y = y := by
  revert y; decide

/-! ### Runs of the decode stage -/

/-- A run of `j + k` steps goes on for `k` steps from where the first `j` end. -/
theorem run_add {j : Nat} {s t : State} (k : Nat)
    (h : Host.Core.run Sys2Proof.core j s = .next t) :
    Host.Core.run Sys2Proof.core (j + k) s = Host.Core.run Sys2Proof.core k t := by
  induction j generalizing s with
  | zero =>
    obtain rfl : s = t := Host.Outcome.next.inj h
    rw [Nat.zero_add]
  | succ j ih =>
    cases hs : step s with
    | next u =>
      rw [run_of_step j hs] at h
      rw [Nat.succ_add, run_of_step (j + k) hs, ih h]
    | fault r => simp [Host.Core.run, show Sys2Proof.core.step s = .fault r from hs] at h
    | refused r => simp [Host.Core.run, show Sys2Proof.core.step s = .refused r from hs] at h

/-- The event of a correction: `st` 01, with a position (R54, R55, R81). -/
def IsCorrection (e : Event) : Prop := e.st = 0b01#2 ∧ 1 ≤ e.pos.toNat ∧ e.pos.toNat ≤ 8

/-- Moves of the decode stage, made from `s`, have left the host in `t` with the moves `rest`: the bytes `out`
are at the end of the output, nothing but corrections has been logged, and the stream, the fault record and
the count of free nibbles are as they were. -/
structure OutputGrows (out : List Byte) (rest : List Move) (s t : State) : Prop where
  moves : t.moves = rest
  output : t.output = s.output ++ out
  log : ∃ events, t.log = s.log ++ events ∧ ∀ e ∈ events, IsCorrection e
  stream : t.stream = s.stream
  faulted : t.faulted = s.faulted
  freeCtr : t.freeCtr = s.freeCtr

/-- Growth in turn: the later bytes and events come after the earlier ones. -/
theorem OutputGrows.trans {out out' : List Byte} {mid rest : List Move} {s t u : State}
    (h : OutputGrows out mid s t) (h' : OutputGrows out' rest t u) :
    OutputGrows (out ++ out') rest s u where
  moves := h'.moves
  output := by rw [h'.output, h.output, List.append_assoc]
  log := by
    obtain ⟨events, hlog, hcorr⟩ := h.log
    obtain ⟨events', hlog', hcorr'⟩ := h'.log
    refine ⟨events ++ events', by rw [hlog', hlog, List.append_assoc], fun e he => ?_⟩
    rcases List.mem_append.mp he with he | he
    · exact hcorr e he
    · exact hcorr' e he
  stream := h'.stream.trans h.stream
  faulted := h'.faulted.trans h.faulted
  freeCtr := h'.freeCtr.trans h.freeCtr

/-- A state in which nothing has changed that the growth speaks of, but the moves. -/
theorem OutputGrows.of_kept {rest : List Move} {s t : State} (moves : t.moves = rest)
    (output : t.output = s.output) (log : t.log = s.log) (stream : t.stream = s.stream)
    (faulted : t.faulted = s.faulted) (freeCtr : t.freeCtr = s.freeCtr) : OutputGrows [] rest s t :=
  ⟨moves, by simp [output], ⟨[], by simp [log], by simp⟩, stream, faulted, freeCtr⟩

/-- A transaction keeps the growth if it logs nothing but a correction, is not the reserved row and uses no
free nibble (R81, R84; log entry 3). -/
theorem OutputGrows.transact {out : List Byte} {rest : List Move} {s t : State} {op : BitVec 3}
    {a b : Byte} (h : OutputGrows out rest s t)
    (hlog : ∀ e ∈ loggedEvents ⟨cmdWord op a b, resultOf (decode (cmdWord op a b)) (freshNibble t)⟩,
      IsCorrection e)
    (hop : op ≠ 0b111#3) (hfree : usesDraw (decode (cmdWord op a b)) = false) :
    OutputGrows out rest s (afterTransact (cmdWord op a b) t) where
  moves := h.moves
  output := h.output
  log := by
    obtain ⟨events, heq, hcorr⟩ := h.log
    refine ⟨_ ++ _, by rw [← List.append_assoc, ← heq]; rfl, fun e he => ?_⟩
    exact (List.mem_append.mp he).elim (hcorr e) (hlog e)
  stream := h.stream
  faulted := by simpa [hop] using h.faulted
  freeCtr := by simpa [hfree] using h.freeCtr

/-! ### One codeword -/

/-- The step of a routed command is the transaction of its word (R28). -/
theorem step_route {s : State} {op : BitVec 3} {a b : Source} {av bv : Byte} {rest : List Move}
    (h : s.moves = .route op a b :: rest) (ha : readSource s a = .ok av)
    (hb : readSource s b = .ok bv) :
    step s = .next (afterTransact (cmdWord op av bv) { s with moves := rest }) := by
  rw [step_cons h]
  exact routeCommand_ok op (by simpa using ha) (by simpa using hb)

/-- The host routes a field of a result it has taken (R28). -/
theorem readSource_result {s : State} {age : Nat} {x : Transaction} (h : s.taken[age]? = some x)
    (f : ResultField) : readSource s (.result age f) = .ok (fieldByte x.result f) := by
  simp [readSource, h]

/-- The event of a `DECN` of a codeword after the channel, if there is one, is a correction (R77, R81). -/
theorem isCorrection_of_decn_channel {n : Nibble} {en : BitVec 1} {sel : BitVec 3} {d : Nibble} {b : Byte}
    {e : Event} (he : e ∈ loggedEvents ⟨cmdWord 0b101#3 (table n ^^^ flipMask en sel) b,
      resultOf (.decn (table n ^^^ flipMask en sel)) d⟩) : IsCorrection e := by
  obtain ⟨-, hst⟩ := resultOf_decn_channel n en sel d
  obtain ⟨-, hpos, -⟩ := legalResult_resultOf (.decn (table n ^^^ flipMask en sel)) d
  have hcases : ∀ en : BitVec 1, BitVec.ofNat 2 en.toNat ≠ 0b00#2 → BitVec.ofNat 2 en.toNat = 0b01#2 := by
    decide
  rw [loggedEvents_cmdWord] at he
  split at he
  case isTrue h =>
    obtain ⟨-, hne⟩ := h
    obtain rfl := List.mem_singleton.mp he
    have h01 := hst.trans (hcases en (hst ▸ hne))
    exact ⟨h01, hpos h01⟩
  case isFalse => cases he

/-- One use of the channel, in two steps (R24, R70): a draw, and the `FLIP` with it, whose result is the
latest taken. -/
theorem channelUse_grows {s : State} {c : Source} {cv : Byte} {rest : List Move}
    (h : s.moves = channelUse c ++ rest) (hc : readSource s c = .ok cv) :
    ∃ t x, Host.Core.run Sys2Proof.core 2 s = .next t ∧ OutputGrows [] rest s t ∧
      t.taken = x :: s.taken ∧ ∃ en sel, x.result.r = cv ^^^ flipMask en sel := by
  have hdraw : step s = .next (takeDraw { s with moves := .flipDrawn c :: rest }) := step_cons h
  have hflip : step (takeDraw { s with moves := .flipDrawn c :: rest }) =
      .next (afterTransact (cmdWord 0b010#3 cv (drawOperand (Config.rngDraw s.gen)))
        (useDraw (takeDraw { s with moves := rest }))) := by
    rw [step_cons (m := .flipDrawn c) (rest := rest) rfl]
    exact flipWithDraw_ok ((readSource_congr rfl rfl c).trans hc) rfl
  have hdrawn : OutputGrows [] rest s (useDraw (takeDraw { s with moves := rest })) :=
    .of_kept rfl rfl rfl rfl rfl rfl
  refine ⟨_, _, (run_of_step 1 hdraw).trans (run_of_step 0 hflip),
    hdrawn.transact (by simp [loggedEvents_cmdWord]) (by decide) (by rw [decode_flipWord]; rfl), rfl,
    (Config.rngDraw s.gen).extractLsb' 3 1, (Config.rngDraw s.gen).extractLsb' 0 3, ?_⟩
  rw [decode_flipWord]
  rfl

/-- One codeword decoded after the channel, in one step (R76, R77): the latest result is its nibble. -/
theorem decodeRouted_grows {s : State} {x : Transaction} {past : List Transaction} {n : Nibble}
    {en : BitVec 1} {sel : BitVec 3} {rest : List Move}
    (h : s.moves = .route 0b101#3 (.result 0 .r) (.lit 0#8) :: rest) (htaken : s.taken = x :: past)
    (hx : x.result.r = table n ^^^ flipMask en sel) :
    ∃ t y, step s = .next t ∧ OutputGrows [] rest s t ∧ t.taken = y :: s.taken ∧
      y.result.r = n.setWidth 8 := by
  have ha : readSource s (.result 0 .r) = .ok (table n ^^^ flipMask en sel) := by
    rw [readSource_result (x := x) (by rw [htaken]; rfl)]
    exact congrArg _ hx
  obtain ⟨-, -, -, -, -, hdecn, -⟩ := decode_cmdWord (table n ^^^ flipMask en sel) 0#8
  have hstart : OutputGrows [] rest s { s with moves := rest } :=
    .of_kept rfl rfl rfl rfl rfl rfl
  refine ⟨_, _, step_route h ha rfl, hstart.transact (fun e he => ?_) (by decide) ?_, rfl, ?_⟩
  · rw [hdecn] at he
    exact isCorrection_of_decn_channel he
  · rw [hdecn]
    exact isUncorrectable_channel n en sel
  · rw [hdecn]
    exact (resultOf_decn_channel n en sel _).1

/-- One codeword of the stream, in three steps (R70, R102): through the channel with a fresh draw, and its
nibble decoded, the latest of two results taken. -/
theorem decodeCodeword_grows {s : State} {k : Nat} {n : Nibble} {rest : List Move}
    (h : s.moves = codewordMoves k ++ rest) (hk : s.stream[k]? = some (table n)) :
    ∃ t x y, Host.Core.run Sys2Proof.core 3 s = .next t ∧ OutputGrows [] rest s t ∧
      t.taken = y :: x :: s.taken ∧ y.result.r = n.setWidth 8 := by
  obtain ⟨t, x, hrun, hgrow, htaken, en, sel, hx⟩ :=
    channelUse_grows (rest := .route 0b101#3 (.result 0 .r) (.lit 0#8) :: rest) h
      (show readSource s (.stream k) = .ok (table n) by simp [readSource, hk])
  obtain ⟨u, y, hstep, hgrow', htaken', hy⟩ := decodeRouted_grows hgrow.moves htaken hx
  exact ⟨u, x, y, (run_add 1 hrun).trans (run_of_step 0 hstep), hgrow.trans hgrow',
    by rw [htaken', htaken], hy⟩

/-! ### One pair -/

/-- The step that emits the latest result appends its `r` to the output (R102). -/
theorem step_emit {s : State} {x : Transaction} {past : List Transaction} {rest : List Move}
    (h : s.moves = .emit :: rest) (hx : s.taken = x :: past) :
    step s = .next { s with moves := rest, output := s.output ++ [x.result.r] } := by
  rw [step_cons h]
  exact emitResult_next.mpr ⟨x, past, hx, rfl⟩

/-- The last two moves of a pair (R82, R102): the nibbles in the results of ages 2 and 0 are joined, and the
byte goes to the end of the output. -/
theorem reassemble_grows {s : State} {x y z : Transaction} {past : List Transaction} {rest : List Move}
    (h : s.moves = .route 0b110#3 (.result 2 .r) (.result 0 .r) :: .emit :: rest)
    (htaken : s.taken = z :: y :: x :: past) :
    ∃ t u, step s = .next t ∧ step t = .next u ∧
      OutputGrows [loNibble x.result.r ++ loNibble z.result.r] rest s u := by
  have hx := readSource_result (s := s) (age := 2) (x := x) (by rw [htaken]; rfl) .r
  have hz := readSource_result (s := s) (age := 0) (x := z) (by rw [htaken]; rfl) .r
  obtain ⟨-, -, -, -, -, -, hreas, -⟩ := decode_cmdWord x.result.r z.result.r
  have hstart : OutputGrows [] (.emit :: rest) s { s with moves := .emit :: rest } :=
    .of_kept rfl rfl rfl rfl rfl rfl
  have hgrow := hstart.transact (op := 0b110#3) (a := x.result.r) (b := z.result.r)
    (by simp [loggedEvents_cmdWord]) (by decide) (by rw [hreas]; rfl)
  refine ⟨_, _, step_route h hx hz, step_emit rfl rfl, rfl, ?_, hgrow.log, hgrow.stream, hgrow.faulted,
    hgrow.freeCtr⟩
  simp [hreas, fieldByte, resultOf]

/-- One pair of codewords, in eight steps (R70, R102): the byte of the two nibbles goes to the end of the
output, whatever the draws. -/
theorem decodePair_grows {s : State} {j : Nat} {h l : Nibble} {rest : List Move}
    (hmoves : s.moves = pairMoves j ++ rest) (hh : s.stream[2 * j]? = some (table h))
    (hl : s.stream[2 * j + 1]? = some (table l)) :
    ∃ t, Host.Core.run Sys2Proof.core 8 s = .next t ∧ OutputGrows [h ++ l] rest s t := by
  rw [pairMoves, List.append_assoc, List.append_assoc] at hmoves
  obtain ⟨t, f₁, x, hrun, hgrow, htaken, hx⟩ := decodeCodeword_grows hmoves hh
  obtain ⟨u, f₂, z, hrun', hgrow', htaken', hz⟩ :=
    decodeCodeword_grows hgrow.moves (hgrow.stream ▸ hl)
  obtain ⟨v, w, huv, hvw, hgrow''⟩ := reassemble_grows (x := x) (y := f₂) (z := z) (rest := rest)
    hgrow'.moves (by rw [htaken', htaken])
  rw [hx, hz, loNibble_setWidth, loNibble_setWidth] at hgrow''
  refine ⟨w, ?_, hgrow.trans (hgrow'.trans hgrow'')⟩
  calc Host.Core.run Sys2Proof.core (3 + 5) s
    _ = Host.Core.run Sys2Proof.core (3 + 2) t := run_add 5 hrun
    _ = Host.Core.run Sys2Proof.core (1 + 1) u := run_add 2 hrun'
    _ = Host.Core.run Sys2Proof.core 1 v := run_of_step 1 huv
    _ = .next w := run_of_step 0 hvw

/-! ### All pairs -/

/-- The pairs from `first` on, eight steps each (R102): the output grows by the bytes whose codewords stand in
the stream from there. -/
theorem decodePairs_grows (bytes : List Byte) {first : Nat} {s : State} {rest : List Move}
    (h : s.moves = pairsFrom first bytes.length ++ rest)
    (hstream : s.stream.drop (2 * first) = bytes.flatMap codewordsOf) :
    ∃ t, Host.Core.run Sys2Proof.core (8 * bytes.length) s = .next t ∧
      OutputGrows bytes rest s t := by
  induction bytes generalizing s first with
  | nil => exact ⟨s, rfl, OutputGrows.of_kept h rfl rfl rfl rfl rfl⟩
  | cons y ys ih =>
    have hdrop : s.stream.drop (2 * first) =
        table (hiNibble y) :: table (loNibble y) :: ys.flatMap codewordsOf := hstream
    have hhi : s.stream[2 * first]? = some (table (hiNibble y)) := by
      simpa [hdrop] using (List.getElem?_drop (xs := s.stream) (i := 2 * first) (j := 0)).symm
    have hlo : s.stream[2 * first + 1]? = some (table (loNibble y)) := by
      simpa [hdrop] using (List.getElem?_drop (xs := s.stream) (i := 2 * first) (j := 1)).symm
    have hrest : s.stream.drop (2 * (first + 1)) = ys.flatMap codewordsOf := by
      rw [Nat.mul_succ, ← List.drop_drop, hdrop]; rfl
    obtain ⟨t, hrun, hgrow⟩ := decodePair_grows
      (h.trans (List.append_assoc (pairMoves first) (pairsFrom (first + 1) ys.length) rest)) hhi hlo
    rw [hiNibble_append_loNibble] at hgrow
    obtain ⟨u, hrun', hgrow'⟩ := ih hgrow.moves (hgrow.stream ▸ hrest)
    refine ⟨u, ?_, hgrow.trans hgrow'⟩
    rw [List.length_cons, Nat.mul_succ, Nat.add_comm, run_add _ hrun, hrun']

/-- The decode stage on the codewords of the bytes (R86, R102; log entry 16): a new output, the length check
passed, and the bytes. -/
theorem decodeStage_run (bytes : List Byte) {s : State} {rest : List Move}
    (h : s.moves = decodeMoves (2 * bytes.length) ++ rest)
    (hstream : s.stream = bytes.flatMap codewordsOf) :
    ∃ t, Host.Core.run Sys2Proof.core (8 * bytes.length + 2) s = .next t ∧
      OutputGrows bytes rest (clearOutput s) t := by
  have hhalf : 2 * bytes.length / 2 = bytes.length := by omega
  have heven : s.stream.length % 2 = 0 := by
    simp [hstream, codewordsOf, List.length_flatMap]
  rw [decodeMoves, hhalf] at h
  have hclear := step_cons h
  have hcheck : step (clearOutput { s with
      moves := .checkStream :: (pairsFrom 0 bytes.length ++ rest) }) =
      .next (clearOutput { s with moves := pairsFrom 0 bytes.length ++ rest }) := by
    rw [step_cons (m := .checkStream) (rest := pairsFrom 0 bytes.length ++ rest) rfl]
    exact checkLength_next.mpr ⟨heven, rfl⟩
  obtain ⟨t, hrun, hgrow⟩ := decodePairs_grows bytes (first := 0)
    (s := clearOutput { s with moves := pairsFrom 0 bytes.length ++ rest }) rfl hstream
  refine ⟨t, ?_, hgrow.moves, hgrow.output, hgrow.log, hgrow.stream, hgrow.faulted, hgrow.freeCtr⟩
  exact (run_of_step _ hclear).trans ((run_of_step _ hcheck).trans hrun)

/-! ### The statements -/

/-- Settles O8: `ENCN`'s row of the decoder, its result, and the table's entry. -/
theorem encnDrivesTableEntry : Obligations.EncnDrivesTableEntry := by
  refine ⟨fun a b => ?_, fun n s => rfl, fun n => ⟨syndrome_table n, hiNibble_table n⟩, rfl, rfl, rfl⟩
  obtain ⟨encn, -⟩ := decode_cmdWord a b
  exact encn

/-- Settles O9: `ENCB`'s row of the decoder, its result, and four entries of the table. -/
theorem encbDrivesBothCodewords : Obligations.EncbDrivesBothCodewords := by
  refine ⟨fun a b => ?_, fun y s => rfl, rfl, rfl, rfl, rfl⟩
  obtain ⟨-, encb, -⟩ := decode_cmdWord a b
  exact encb

/-- Settles O31: each codeword comes back from the channel as its nibble, with the outcome class of its draw,
and the byte is its two nibbles joined. -/
theorem roundTripThroughChannel : Obligations.RoundTripThroughChannel := by
  intro y en₁ en₂ sel₁ sel₂ s
  refine ⟨_, _, _, _, _, _, exec_eq _ s, exec_eq _ _, exec_eq _ _, exec_eq _ _, exec_eq _ _, exec_eq _ _,
    (resultOf_decn_channel (hiNibble y) en₁ sel₁ _).2,
    (resultOf_decn_channel (loNibble y) en₂ sel₂ _).2, ?_⟩
  show loNibble (resultOf (.decn (table (hiNibble y) ^^^ flipMask en₁ sel₁)) _).r ++
    loNibble (resultOf (.decn (table (loNibble y) ^^^ flipMask en₂ sel₂)) _).r = y
  rw [(resultOf_decn_channel _ en₁ sel₁ _).1, (resultOf_decn_channel _ en₂ sel₂ _).1, loNibble_setWidth,
    loNibble_setWidth, hiNibble_append_loNibble]

/-- Settles O56: the set-up and the encode stage leave the stream of the input and an empty log, and the decode
stage makes the input of it. -/
theorem pipelineRestoresInput : Obligations.PipelineRestoresInput := by
  intro s seed input rest h
  rw [pipeline, List.append_assoc, List.append_assoc] at h
  obtain ⟨t, hst, htu⟩ := bootSeedsAndClearsLog s seed _ h
  obtain ⟨v, hencode, hmoves, hstream, hlength, -, hlog, -, -, hfaulted, hfree⟩ :=
    encodeStageMakesStream { s with
      moves := encodeMoves input ++ (decodeMoves (2 * input.length) ++ rest), gen := seed, log := [] }
      input _ rfl
  obtain ⟨w, hdecode, hgrow⟩ := decodeStage_run input hmoves hstream
  obtain ⟨events, hevents, hcorr⟩ := hgrow.log
  refine ⟨w, ?_, hgrow.moves, hgrow.output, ?_, ?_, hgrow.faulted.trans hfaulted,
    hgrow.freeCtr.trans hfree⟩
  · rw [show 10 * input.length + 5 = 2 * input.length + 1 + (8 * input.length + 2) + 1 + 1 by omega,
      run_of_step _ hst, run_of_step _ htu, run_add _ hencode, hdecode]
  · rw [hgrow.stream]
    exact hlength
  · have hw : w.log = events := hevents.trans (congrArg (· ++ events) hlog)
    rw [hw]
    exact hcorr

end Sys2Proof.Machine

/-! ## The channel family

The weight of what the channel adds to a codeword, and one pair of the decode stage (R59, R70, R71, R102). -/

namespace Sys2Proof.Machine

/-- The flip mask has one bit set when the channel flips, and none when it does not (R59). -/
theorem weight_flipMask : ∀ (en : BitVec 1) (sel : BitVec 3), weight (flipMask en sel) = en.toNat := by
  decide

/-- Settles O30: the codeword cancels from the distance, and the weight of the flip mask is left. -/
theorem flipChangesAtMostOneBit : Obligations.FlipChangesAtMostOneBit := by
  intro c en sel s
  refine ⟨_, rfl, ?_⟩
  have hcancel : c ^^^ flipMask en sel ^^^ c = flipMask en sel := by
    rw [BitVec.xor_comm c, BitVec.xor_assoc, BitVec.xor_self, BitVec.xor_zero]
  exact (congrArg weight hcancel).trans (weight_flipMask en sel)

/-- Settles O43: the growth of the output over one pair, of whose events only the outcome class is kept. -/
theorem pairThroughChannelRestoresByte : Obligations.PairThroughChannelRestoresByte := by
  intro s j h l rest hmoves hh hl
  obtain ⟨t, hrun, hgrow⟩ := decodePair_grows hmoves hh hl
  obtain ⟨events, hlog, hcorr⟩ := hgrow.log
  refine ⟨t, hrun, hgrow.moves, hgrow.output, hgrow.stream, hgrow.faulted, hgrow.freeCtr, events, hlog,
    fun e he => ?_⟩
  obtain ⟨hst, -⟩ := hcorr e he
  exact hst

end Sys2Proof.Machine

/-! ## The decoder family

The four outcomes and what correction makes of a word with any error pattern, and from them the three decoder
operations (R72 to R80). -/

namespace Sys2Proof.Machine

/-! ### The outcome of a syndrome -/

/-- Clean is the outcome of the syndrome zero alone (R72). -/
theorem classify_eq_clean_iff (s : Syndrome) :
    classify s = .clean ↔ s = ⟨false, false, false, false⟩ := by
  obtain ⟨s1, s2, s3, s4⟩ := s
  revert s1 s2 s3 s4; decide

/-- Uncorrectable is the outcome of a syndrome other than zero with s4 = 0 (R72). -/
theorem classify_eq_uncorrectable_iff (s : Syndrome) :
    classify s = .uncorrectable ↔ s.s4 = false ∧ synField s ≠ 0#4 := by
  obtain ⟨s1, s2, s3, s4⟩ := s
  revert s1 s2 s3 s4; decide

/-- A position is named exactly with s4 = 1 (R72). -/
theorem exists_classify_eq_correctedAt_iff (s : Syndrome) :
    (∃ p, classify s = .correctedAt p) ↔ s.s4 = true := by
  obtain ⟨s1, s2, s3, s4⟩ := s
  cases s4 <;> cases h : s1 || s2 || s3 <;> simp [classify, h]

/-- The last bit of `syn` is s4 (R52). -/
theorem synField_getLsbD_zero (s : Syndrome) : (synField s).getLsbD 0 = s.s4 := by
  obtain ⟨-, -, -, h₀⟩ := synField_bits s
  exact h₀

/-- The code 10 names Uncorrectable (R54). -/
theorem stCode_eq_uncorrectable_iff (o : CorrectionOutcome) :
    stCode o = 0b10#2 ↔ o = .uncorrectable := by
  cases o <;> simp [stCode]

/-- The two outcome fields by the four cases of the rule, in its order (R54, R55, R72). -/
theorem stCode_posCode_classify : ∀ s1 s2 s3 s4 : Bool,
    (stCode (classify ⟨s1, s2, s3, s4⟩), (posCode (classify ⟨s1, s2, s3, s4⟩)).toNat) =
      if s4 = false ∧ s1 = false ∧ s2 = false ∧ s3 = false then (0b00#2, 0)
      else if s4 = false then (0b10#2, 0)
      else if s1 = false ∧ s2 = false ∧ s3 = false then (0b01#2, 8)
      else (0b01#2, 4 * s1.toNat + 2 * s2.toNat + 1 * s3.toNat) := by decide

/-- Position 8 is the one whose column has s4 alone (R53, R55). -/
theorem posCode_classify_eq_eight_iff (s : Syndrome) :
    posCode (classify s) = 8#4 ↔ synField s = 0b0001#4 := by
  obtain ⟨s1, s2, s3, s4⟩ := s
  revert s1 s2 s3 s4; decide

/-- The column at the position an outcome names is the syndrome (R53, R72). -/
theorem syndrome_positionBit_of_correctedAt {s : Syndrome} {p : Nat}
    (h : classify s = .correctedAt p) : syndrome (positionBit p) = s := by
  have hs4 : s.s4 = true := (exists_classify_eq_correctedAt_iff s).mp ⟨p, h⟩
  obtain ⟨-, h₈⟩ := classify_position s p h
  have hpos : (posCode (classify s)).toNat = p := by
    simp [h, posCode, Nat.mod_eq_of_lt (show p < 16 by omega)]
  rw [← hpos, syndrome_positionBit_posCode s hs4]

/-! ### Error patterns -/

/-- s4 is the parity of the number of errors (R45, R79). -/
theorem s4_eq_weight_odd (e : Byte) : (syndrome e).s4 = decide (weight e % 2 = 1) := by
  revert e; decide

/-- One error at position `p` is the channel's flip with `flip_sel = p - 1` (R53, R59). -/
theorem positionBit_eq_flipMask {p : Nat} (h₁ : 1 ≤ p) (h₈ : p ≤ 8) :
    positionBit p = flipMask 1#1 (BitVec.ofNat 3 (p - 1)) := by
  simp [positionBit, flipMask, Nat.mod_eq_of_lt (show p - 1 < 8 by omega)]

/-- One error is located at its position (R77). -/
theorem classify_table_xor_positionBit (n : Nibble) {p : Nat} (h₁ : 1 ≤ p) (h₈ : p ≤ 8) :
    classify (syndrome (table n ^^^ positionBit p)) = .correctedAt p := by
  rw [positionBit_eq_flipMask h₁ h₈, classify_channel]
  simp [channelOutcome, Nat.mod_eq_of_lt (show p - 1 < 8 by omega), Nat.sub_add_cancel h₁]

/-- The column of `H` at a position is its label, position 8 labelled 0, with s4 = 1 beside it (R53, R78). -/
theorem toNat_synField_positionBit_label {p : Nat} (h₁ : 1 ≤ p) (h₈ : p ≤ 8) :
    (synField (syndrome (positionBit p))).toNat = 2 * (p % 8) + 1 := by
  rw [toNat_synField_positionBit h₁ h₈]
  split <;> omega

/-- The syndrome of a codeword with two errors: s4 = 0 beside the exclusive OR of the labels (R78). -/
theorem toNat_synField_two_errors (n : Nibble) {p q : Nat} (hp₁ : 1 ≤ p) (hp₈ : p ≤ 8) (hq₁ : 1 ≤ q)
    (hq₈ : q ≤ 8) :
    (synField (syndrome (table n ^^^ positionBit p ^^^ positionBit q))).toNat =
      2 * ((p % 8) ^^^ (q % 8)) := by
  rw [BitVec.xor_assoc, syndrome_table_xor, syndrome_xor, synField_xor, BitVec.toNat_xor,
    toNat_synField_positionBit_label hp₁ hp₈, toNat_synField_positionBit_label hq₁ hq₈]
  exact Nat.xor_bit true (p % 8) true (q % 8)

/-- Two errors are Uncorrectable, as their labels differ (R78). -/
theorem classify_two_errors (n : Nibble) {p q : Nat} (hp₁ : 1 ≤ p) (hp₈ : p ≤ 8) (hq₁ : 1 ≤ q)
    (hq₈ : q ≤ 8) (hne : p ≠ q) :
    classify (syndrome (table n ^^^ positionBit p ^^^ positionBit q)) = .uncorrectable := by
  have hsyn := toNat_synField_two_errors n hp₁ hp₈ hq₁ hq₈
  rw [classify_eq_uncorrectable_iff]
  constructor
  · rw [← synField_getLsbD_zero, BitVec.getLsbD, hsyn]
    simp
  · intro h
    rw [h] at hsyn
    have hxor : (p % 8) ^^^ (q % 8) = 0 := by simpa using hsyn
    rw [Nat.xor_eq_zero_iff] at hxor
    omega

/-! ### The corrected word -/

/-- The corrected word is valid when there is one: the flipped position's column cancels the syndrome (R80). -/
theorem syndrome_correct {c : Byte} (h : classify (syndrome c) ≠ .uncorrectable) :
    syndrome (correct c) = ⟨false, false, false, false⟩ := by
  cases hc : classify (syndrome c) with
  | uncorrectable => exact absurd hc h
  | clean => simpa [correct, hc, flipLocated] using (classify_eq_clean_iff _).mp hc
  | correctedAt p =>
    simp [correct, hc, flipLocated, syndrome_xor, syndrome_positionBit_of_correctedAt hc]

/-- Correction changes at most one bit (R73). -/
theorem weight_xor_correct_le_one (c : Byte) : weight (c ^^^ correct c) ≤ 1 := by
  cases hc : classify (syndrome c) with
  | clean => simp [correct, hc, flipLocated, weight]
  | uncorrectable => simp [correct, hc, flipLocated, weight]
  | correctedAt p =>
    obtain ⟨h₁, h₈⟩ := classify_position _ p hc
    have hword : c ^^^ correct c = positionBit p := by
      simp [correct, hc, flipLocated]
    rw [hword, positionBit_eq_flipMask h₁ h₈, weight_flipMask]
    rfl

/-- A word with two or more errors, when it is corrected at all, becomes another nibble's codeword: its own is
further away than the one bit that correction changes (R79). -/
theorem correct_eq_table_of_two_le_weight {n : Nibble} {e : Byte} (he : 2 ≤ weight e)
    (h : classify (syndrome (table n ^^^ e)) ≠ .uncorrectable) :
    ∃ m, m ≠ n ∧ correct (table n ^^^ e) = table m := by
  obtain ⟨m, hm⟩ := (syndrome_eq_zero_iff _).mp (syndrome_correct h)
  refine ⟨m, ?_, hm⟩
  rintro rfl
  have hle := weight_xor_correct_le_one (table m ^^^ e)
  have hword : table m ^^^ e ^^^ table m = e := by
    rw [BitVec.xor_comm (table m), BitVec.xor_assoc, BitVec.xor_self, BitVec.xor_zero]
  rw [hm, hword] at hle
  omega

/-! ### The decoder's results -/

/-- The outcome fields of the three decoder operations are those of the word's syndrome (R74 to R76). -/
theorem resultOf_outcome {i : Instr} {c : Byte} (hi : i = .synd c ∨ i = .corr c ∨ i = .decn c)
    (d : Nibble) :
    (resultOf i d).syn = synField (syndrome c) ∧ (resultOf i d).st = stCode (classify (syndrome c)) ∧
    (resultOf i d).pos = posCode (classify (syndrome c)) := by
  rcases hi with rfl | rfl | rfl <;> exact ⟨rfl, rfl, rfl⟩

/-- `DECN` of a word that is corrected to an entry of the table gives that entry and its nibble (R76). -/
theorem resultOf_decn_of_correct {c : Byte} {m : Nibble} (d : Nibble)
    (h : classify (syndrome c) ≠ .uncorrectable) (hm : correct c = table m) :
    (resultOf (.decn c) d).r = m.setWidth 8 ∧ (resultOf (.decn c) d).r2 = table m := by
  have hu : isUncorrectable c = false := Bool.eq_false_iff.mpr (mt (isUncorrectable_iff c).mp h)
  have hn : (table m).extractLsb' 4 4 = m := hiNibble_table m
  simp [resultOf, hu, hm, hn]

/-! ### The statements -/

/-- Settles O13: `DECN`'s row of the decoder, its result on either side of Uncorrectable, and that the
corrected word is valid. -/
theorem decnDrivesNibbleAndWord : Obligations.DecnDrivesNibbleAndWord := by
  refine ⟨fun a b => ?_, fun c s h => execDecn_decoded s h, fun c s h => ⟨freshNibble s, ?_⟩,
    fun c h => syndrome_correct h, fun s => rfl⟩
  · obtain ⟨-, -, -, -, -, decn, -⟩ := decode_cmdWord a b
    exact decn
  · rw [exec, execDecn_uncorrectable s h, correct_of_uncorrectable c h, outcomeResult, h]
    rfl

/-- Settles O25: the outcome fields are those of the syndrome, which has the four cases. -/
theorem outcomeFollowsSyndrome : Obligations.OutcomeFollowsSyndrome := by
  intro c s i hi
  obtain ⟨hsyn, hst, hpos⟩ := resultOf_outcome hi (freshNibble s)
  refine ⟨_, exec_eq i s, _, _, _, _, hsyn, rfl, ?_⟩
  rw [afterExec, hst, hpos]
  exact stCode_posCode_classify _ _ _ _

/-- Settles O26: no error, and an error at each position, are what the channel can make. -/
theorem atMostOneErrorIsDecoded : Obligations.AtMostOneErrorIsDecoded := by
  intro n s
  constructor
  · obtain ⟨hr, hst⟩ := resultOf_decn_channel n 0#1 0#3 (freshNibble s)
    have hword : table n ^^^ flipMask 0#1 0#3 = table n := BitVec.xor_zero
    rw [hword] at hr hst
    exact ⟨_, exec_eq _ s, hst, hr⟩
  · intro p h₁ h₈
    obtain ⟨hr, hst⟩ := resultOf_decn_channel n 1#1 (BitVec.ofNat 3 (p - 1)) (freshNibble s)
    rw [← positionBit_eq_flipMask h₁ h₈] at hr hst
    have hpos : (posCode (classify (syndrome (table n ^^^ positionBit p)))).toNat = p := by
      rw [classify_table_xor_positionBit n h₁ h₈]
      exact Nat.mod_eq_of_lt (by omega)
    exact ⟨_, exec_eq _ s, hst, hpos, hr⟩

/-- Settles O27: the labels of two positions differ, so the word is Uncorrectable and stays as it is. -/
theorem twoErrorsAreDetected : Obligations.TwoErrorsAreDetected := by
  intro n p q s hp₁ hp₈ hq₁ hq₈ hne
  have hsyn := toNat_synField_two_errors n hp₁ hp₈ hq₁ hq₈
  have hout := classify_two_errors n hp₁ hp₈ hq₁ hq₈ hne
  have hst := congrArg stCode hout
  have hpos := congrArg posCode hout
  have hword := correct_of_uncorrectable _ hout
  obtain ⟨hs4, -⟩ := (classify_eq_uncorrectable_iff _).mp hout
  have hlabel := Nat.div_eq_of_eq_mul_right Nat.two_pos hsyn
  exact ⟨_, _, _, exec_eq _ s, exec_eq _ s, exec_eq _ s, (synField_getLsbD_zero _).trans hs4, hlabel,
    hst, hpos, hst, hpos, hword, hst, hpos, hword⟩

/-- Settles O28: s4 is the parity of the errors; with s4 = 1 a position is named, with s4 = 0 none; and a word
corrected from so far away is another nibble's. -/
theorem threeOrMoreErrors : Obligations.ThreeOrMoreErrors := by
  refine ⟨fun n e s he => ⟨_, exec_eq _ s, fun hodd => ?_, fun heven => ?_⟩, fun s =>
    ⟨⟨_, rfl, rfl, rfl, rfl, rfl⟩, ⟨_, rfl, rfl, rfl⟩⟩⟩
  · have hs4 : (syndrome (table n ^^^ e)).s4 = true := by
      simp [syndrome_table_xor, s4_eq_weight_odd, hodd]
    obtain ⟨p, hp⟩ := (exists_classify_eq_correctedAt_iff _).mpr hs4
    have hu : classify (syndrome (table n ^^^ e)) ≠ .uncorrectable := by simp [hp]
    obtain ⟨m, hm, hword⟩ := correct_eq_table_of_two_le_weight (by omega) hu
    exact ⟨(synField_getLsbD_zero _).trans hs4, congrArg stCode hp, m, hm,
      resultOf_decn_of_correct _ hu hword⟩
  · have hs4 : (syndrome (table n ^^^ e)).s4 ≠ true := by
      simp [syndrome_table_xor, s4_eq_weight_odd, heven]
    cases hc : classify (syndrome (table n ^^^ e)) with
    | uncorrectable => exact .inl (congrArg stCode hc)
    | correctedAt p => exact absurd ((exists_classify_eq_correctedAt_iff _).mp ⟨p, hc⟩) hs4
    | clean =>
      have hu : classify (syndrome (table n ^^^ e)) ≠ .uncorrectable := by simp [hc]
      obtain ⟨m, hm, hword⟩ := correct_eq_table_of_two_le_weight (by omega) hu
      exact .inr ⟨congrArg stCode hc, m, hm, resultOf_decn_of_correct _ hu hword⟩

/-- Settles O29: `CORR` and `DECN` give the same corrected word, whose syndrome is zero. -/
theorem correctedWordIsValid : Obligations.CorrectedWordIsValid := by
  intro c s
  refine ⟨_, _, _, _, exec_eq _ s, exec_eq _ _, exec_eq _ s, exec_eq _ _, fun hst => ?_⟩
  have hvalid : synField (syndrome (correct c)) = 0#4 :=
    (synField_eq_zero_iff _).mpr (syndrome_correct (mt (stCode_eq_uncorrectable_iff _).mpr hst))
  exact ⟨hvalid, hvalid⟩

/-- Settles O11: `SYND`'s row of the decoder, its result, and the syndromes of no error and of position 8. -/
theorem syndDrivesSyndromeAndOutcome : Obligations.SyndDrivesSyndromeAndOutcome := by
  refine ⟨fun a b => ?_, fun c s => rfl,
    fun c s => ⟨_, rfl, fun hc => ?_, posCode_classify_eq_eight_iff _⟩, fun s => rfl⟩
  · obtain ⟨-, -, -, synd, -⟩ := decode_cmdWord a b
    exact synd
  · have hclean := (classify_eq_clean_iff _).mpr hc
    exact ⟨(synField_eq_zero_iff _).mpr hc, congrArg stCode hclean, congrArg posCode hclean⟩

/-- Settles O12: `CORR`'s row of the decoder, its result, and that the flipped word is valid. -/
theorem corrDrivesCorrectedWord : Obligations.CorrDrivesCorrectedWord := by
  refine ⟨fun a b => ?_, fun c s => ?_, fun c p hp => ?_, fun s => rfl⟩
  · obtain ⟨-, -, -, -, corr, -⟩ := decode_cmdWord a b
    exact corr
  · rw [exec, execCorr, correct, outcomeResult]
    cases classify (syndrome c) <;> rfl
  · have hvalid := syndrome_correct (c := c) (by simp [hp])
    rwa [correct, hp] at hvalid

end Sys2Proof.Machine

/-! ## The reassembler family

What `REAS` makes of two nibbles, in one transaction and at the end of a pair (R82, R102). -/

namespace Sys2Proof.Machine

/-- Two nibbles side by side are `(h << 4) | l` (R82). -/
theorem append_eq_shiftLeft_or (h l : Nibble) : h ++ l = h.setWidth 8 <<< 4 ||| l.setWidth 8 := by
  rw [BitVec.append_def, BitVec.shiftLeftZeroExtend_eq, BitVec.setWidth'_eq]

/-- `DECN` of a valid codeword gives its nibble, whatever the free nibble at hand (R73, R76). -/
theorem resultOf_decn_table (n d : Nibble) : (resultOf (.decn (table n)) d).r = n.setWidth 8 := by
  have hclean : classify (syndrome (table n)) = .clean := congrArg classify (syndrome_table n)
  have hword : correct (table n) = table n := congrArg (flipLocated (table n)) hclean
  obtain ⟨hr, -⟩ := resultOf_decn_of_correct d (by simp [hclean]) hword
  exact hr

/-- The whole state after the transaction of a `REAS`: the word and the joined nibbles on the ports and among
the results taken, and nothing else changed (R81, R82, R84). -/
theorem afterTransact_reas (a b : Byte) (s : State) :
    afterTransact (cmdWord 0b110#3 a b) s =
      { s with
        cmd := cmdWord 0b110#3 a b
        port := resultOf (.reas (loNibble a) (loNibble b)) (freshNibble s)
        taken := ⟨cmdWord 0b110#3 a b, resultOf (.reas (loNibble a) (loNibble b)) (freshNibble s)⟩ ::
          s.taken } := by
  obtain ⟨-, -, -, -, -, -, hreas, -⟩ := decode_cmdWord a b
  simp [afterTransact, takeResult, afterExec, present, hreas, loggedEvents_cmdWord, usesDraw, freshNibble]

/-- Settles O14: `REAS`'s row of the decoder, its result, and that it undoes `ENCB` through `DECN`. -/
theorem reasJoinsNibbles : Obligations.ReasJoinsNibbles := by
  refine ⟨fun a b => ?_, fun h l s => ?_, fun s => rfl, fun y s =>
    ⟨_, _, _, _, exec_eq _ s, exec_eq _ _, exec_eq _ _, exec_eq _ _, ?_⟩⟩
  · obtain ⟨-, -, -, -, -, -, reas, -⟩ := decode_cmdWord a b
    exact reas
  · rw [← append_eq_shiftLeft_or]
    rfl
  · show loNibble (resultOf (.decn (table (hiNibble y))) _).r ++
      loNibble (resultOf (.decn (table (loNibble y))) _).r = y
    rw [resultOf_decn_table, resultOf_decn_table, loNibble_setWidth, loNibble_setWidth,
      hiNibble_append_loNibble]

/-- Settles O42: the transaction of the `REAS` on the two routed results, which logs nothing, and the emission
of its byte. -/
theorem decodeStageAppendsByte : Obligations.DecodeStageAppendsByte := by
  intro s x y z past rest hmoves htaken
  have hx := readSource_result (s := s) (age := 2) (x := x) (by rw [htaken]; rfl) .r
  have hz := readSource_result (s := s) (age := 0) (x := z) (by rw [htaken]; rfl) .r
  have hroute := step_route hmoves hx hz
  rw [afterTransact_reas] at hroute
  exact ⟨_, _, hroute, step_emit rfl rfl, rfl, rfl, rfl, rfl⟩

end Sys2Proof.Machine

/-! ## Faults

The record of an IllegalOp, which only the operation value 111 makes and nothing takes back (R84, R91), and the
host's MalformedInput (R86). -/

namespace Sys2Proof.Machine

/-! ### The record of an IllegalOp -/

/-- A transaction leaves a record once made (R91). -/
theorem Transacts.faulted_stays {w : CmdWord} {s t : State} (eff : Transacts w s t)
    (hs : s.faulted = some .illegalOp) : t.faulted = some .illegalOp := by
  rw [eff.faulted, hs, ite_self]

/-- A transaction changes the record and the list of transactions together: both for a word of operation value
111, and otherwise neither the record nor whether the list has such a word (R84). -/
theorem Transacts.faultedByIllegal {w : CmdWord} {s t : State} (eff : Transacts w s t)
    (hs : FaultedByIllegal s) : FaultedByIllegal t := by
  rw [FaultedByIllegal, eff.taken, eff.faulted, List.any_cons]
  by_cases hop : opField w = 0b111#3
  · have hnew : (w.extractLsb' 16 3 == 0b111#3) = true := beq_iff_eq.mpr hop
    rw [if_pos hop, hnew, Bool.true_or, if_pos rfl]
  · have hnew : (w.extractLsb' 16 3 == 0b111#3) = false := beq_eq_false_iff_ne.mpr hop
    rw [if_neg hop, hnew, Bool.false_or]
    exact hs

/-- Settles O51: a transaction moves the record with the list of transactions, and every other move leaves
both. -/
theorem stepKeepsFaultRecord : Obligations.StepKeepsFaultRecord := by
  intro s t hs h
  obtain ⟨heff, -⟩ := step_effect h
  cases heff with
  | transaction m w head legal eff => exact ⟨eff.faultedByIllegal hs, eff.faulted_stays⟩
  | bookkeeping keeps =>
    rw [FaultedByIllegal, keeps.taken, keeps.faulted]
    exact ⟨hs, id⟩

/-! ### The instruction that raises it -/

/-- The reserved row is the one term that is no command (R60). -/
theorem wellFormed_iff_ne_illegal (i : Instr) : i.wellFormed = true ↔ i ≠ .illegal := by
  cases i <;> simp [Instr.wellFormed]

/-- Every command drives `ill = 0` (R84). -/
theorem resultOf_ill_of_ne_illegal {i : Instr} (hi : i ≠ .illegal) (d : Nibble) :
    (resultOf i d).ill = 0#1 := by
  cases i with
  | illegal => exact absurd rfl hi
  | _ => rfl

/-- Settles O15: the decoder's reserved row, the state it leaves, and that every other instruction drives
`ill = 0` and leaves the record. -/
theorem illegalOpDrivesIllAndFails : Obligations.IllegalOpDrivesIllAndFails := by
  refine ⟨fun a b => ?_, fun s => exec_eq .illegal s, fun i s hwf => ?_⟩
  · obtain ⟨-, -, -, -, -, -, -, illegal⟩ := decode_cmdWord a b
    exact illegal
  · have hi : i ≠ .illegal := (wellFormed_iff_ne_illegal i).mp hwf
    exact ⟨afterExec i s, exec_eq i s, resultOf_ill_of_ne_illegal hi _, if_neg hi⟩

/-! ### The host's length check -/

/-- Settles O40: the move is the length check, which faults exactly on an odd number of codewords. -/
theorem oddStreamIsMalformedInput : Obligations.OddStreamIsMalformedInput := by
  intro s rest hmoves
  rw [step_cons hmoves]
  exact ⟨fun hodd => if_pos hodd, fun heven => checkLength_next.mpr ⟨heven, rfl⟩⟩

end Sys2Proof.Machine
